-- ==== Sys2Proof/Word.lean ====
section
/-! DEFINITION. The words of HAMCORE's ports. Every width is a function of M = log2 N
(spec/00_scope.md R5); N itself is `2 ^ m`. -/

namespace Sys2Proof

/-- A block: N bits, bus bit `i` is block index `i` (00_scope.md §6, 30_encoding.md R31). -/
abbrev Block (m : Nat) := BitVec (2 ^ m)

/-- The operation select (30_encoding.md R32). -/
abbrev OpWord := BitVec 2

/-- A request word REQ, N+2 bits: op above blk_in (30_encoding.md R30). -/
abbrev Req (m : Nat) := BitVec (2 ^ m + 2)

/-- The `syn` port word, M bits (10_state.md R15). -/
abbrev SynWord (m : Nat) := BitVec m

/-- The `loc` port word, M+1 bits (10_state.md R15). -/
abbrev LocWord (m : Nat) := BitVec (m + 1)

end Sys2Proof
end

