-- ==== Sys2Proof/Config.lean ====
section
/-! DEFINITION. What is fixed when HAMCORE is built: the block size (spec/00_scope.md R4, R5).
LATENCY and INSTANCES (R6) are no constants here: the first is the length of a list in a host event,
the second the length of a platform's list of states, at least 1, so that every value of either is covered. There is no free
value: no rule leaves a result of HAMCORE open. -/

namespace Sys2Proof

/-- A valid block size, given by M = log2 N with M ≥ 1, so that N = 2^M is a power of two ≥ 2.
An instance with another N does not exist (00_scope.md R4, 60_exceptions.md R81), and a value of this
type with another N cannot be built. -/
structure BlockSize where
  m : Nat
  pos : 1 ≤ m
  deriving DecidableEq, Repr

/-- N, the number of bits of a block (00_scope.md R4). -/
abbrev BlockSize.n (z : BlockSize) : Nat := 2 ^ z.m

/-- K = N − M − 1, the data capacity of one block (00_scope.md R5). -/
def BlockSize.k (z : BlockSize) : Nat := z.n - z.m - 1

/-- N = 16: the instance that `State.reset` and `decodeTableWord` show. DESIGN CHOICE (log entry 1):
the spec leaves N open; 16 is the size of the source's worked example and of the opcode table's own
columns `match_N16` and `mask_N16`. -/
def BlockSize.reference : BlockSize := ⟨4, by decide⟩

end Sys2Proof
end

