-- ==== Sys2Proof/Machine/State.lean ====
section
/-! DEFINITION. Everything HAMCORE's spec gives the machine (spec/10_state.md R19), the host's side of
its interface as plain data, and the state after reset. -/

namespace Sys2Proof.Machine

/-- The response ports, all valid together for one transaction (10_state.md R15). -/
structure Response (m : Nat) where
  blkOut : Block m
  syn : SynWord m
  loc : LocWord m
  deriving DecidableEq, Repr

/-- The idle values: `blk_out` = 0, `syn` = 0, `loc` = −1, all ones (30_encoding.md R33,
70_reset_and_hazards.md R90). -/
def Response.idle (m : Nat) : Response m := ⟨0, 0, BitVec.allOnes (m + 1)⟩

/-- What the host does at the ports (10_state.md R14; 70_reset_and_hazards.md R90, R94). -/
inductive HostEvent (m : Nat) where
  /-- A transaction: `issued` is the request sampled at issue, `held` the request the ports carry at each
  later time unit up to the response. The length of `held` is LATENCY, ≥ 0, of any value (R93). -/
  | request (issued : Req m) (held : List (Req m))
  /-- Reset, and the transaction it interrupts if one is in flight: the request sampled at issue, and the request
  the ports carried at each later time unit before the reset (R90, R94). -/
  | reset (inFlight : Option (Req m × List (Req m)))
  deriving DecidableEq, Repr

/-- One instance of HAMCORE. `size` and `ports` are the spec's whole state (10_state.md R19): no value
survives from one transaction to the next (R11), and no operation reads `ports` or `delivered`.
`inbox` is what the host is going to do, oldest first, and `delivered` the transcript of the responses
the host has received, oldest first: the model's own fields (log entries 6 and 7). -/
structure State where
  size : BlockSize
  ports : Response size.m
  inbox : List (HostEvent size.m)
  delivered : List (Response size.m)
  deriving DecidableEq, Repr

/-- M of the instance (00_scope.md R5). -/
abbrev State.m (s : State) : Nat := s.size.m

/-- An instance of the given block size right after reset: idle ports and nothing else to initialise
(70_reset_and_hazards.md R90, R91; 10_state.md R19). -/
def State.resetOf (z : BlockSize) : State :=
  { size := z, ports := .idle z.m, inbox := [], delivered := [] }

/-- The machine right after reset: the instance with N = 16 (log entry 1). -/
def State.reset : State := State.resetOf .reference

/-- Why HAMCORE stops with a fault. There is no constructor, because it raises no exception at run time
(60_exceptions.md R80) and has no trap mechanism (R86). DEDUCED, log entry 10. -/
inductive Fault where
  deriving DecidableEq, Repr

/-- Why the model gives a run no meaning. -/
inductive Refusal where
  /-- Raised by an arm of `exec` whose instruction has no meaning yet. Safe: nothing follows from it. -/
  | notModelled (mnemonic : String)
  /-- Raised by `step` when the host changed a request before its response, or before the reset that took the
  response's place: a host violation to which the spec gives no meaning, "A model refuses such a run"
  (70_reset_and_hazards.md R94). Safe (log entry 4). -/
  | requestChanged
  /-- Raised by a meaning whose operand is wider than the instance's N bits. No request word carries such an
  operand (30_encoding.md R30), so `step` never raises it. Safe (log entry 2). -/
  | operandTooWide
  deriving DecidableEq, Repr

end Sys2Proof.Machine
end

