-- ==== Sys2Proof/Machine/Operands.lean ====
section
/-! DEFINITION. The operand port, the positions of a block and the XOR reductions that the operations
share (spec/00_scope.md R7, R8 and §6). -/

namespace Sys2Proof.Machine

/-- The block operand with the given bus value, where N bits hold it (30_encoding.md R31, R36); none for a
wider number, since a transfer is exactly one block (20_memory.md R22). The block is the number's own bits, with no
extension (41_syndrome_locator.md R55). -/
def operand? (m blk : Nat) : Option (Block m) :=
  if blk < 2 ^ 2 ^ m then some (BitVec.ofNat (2 ^ m) blk) else none

/-- isPow2(i): i = 2^k for some k ≥ 0; 0 is none (00_scope.md §6). -/
def isPow2 (i : Nat) : Bool := i == 2 ^ i.log2

/-- i is the overall parity position or an individual one: i ∈ {0} ∪ P (00_scope.md R7). -/
def isParityPosition (i : Nat) : Bool := i == 0 || isPow2 i

/-- P = 2^0, …, 2^(M−1), ascending (00_scope.md R7). -/
def parityPositions (m : Nat) : List Nat := (List.range m).map (2 ^ ·)

/-- D, the data positions below `n`, ascending (00_scope.md R7, R8). -/
def dataPositions (n : Nat) : List Nat := (List.range n).filter fun i => !isParityPosition i

/-- dpos(j), the j-th smallest data position of an N-bit block (00_scope.md R8). -/
def dpos (n j : Nat) : Option Nat := (dataPositions n)[j]?

/-- XOR of the bits f(0), …, f(n−1); 0 for n = 0 (00_scope.md §6). -/
def xorBits : Nat → (Nat → Bool) → Bool
  | 0, _ => false
  | n + 1, f => (xorBits n f).xor (f n)

/-- XOR of the indices i < n with f(i) = 1, as naturals (00_scope.md §6). -/
def xorIndices : Nat → (Nat → Bool) → Nat
  | 0, _ => 0
  | n + 1, f => xorIndices n f ^^^ (if f n then n else 0)

/-- The number of indices i < n with f(i) = 1 (popcount, 00_scope.md §6). -/
def countBits : Nat → (Nat → Bool) → Nat
  | 0, _ => 0
  | n + 1, f => countBits n f + (if f n then 1 else 0)

/-- The block e_i with a single 1 at index i (00_scope.md §6). -/
def unitBlock {m : Nat} (i : Nat) : Block m := BitVec.ofNat (2 ^ m) (2 ^ i)

/-- b[i] <- v. -/
def setIndex {m : Nat} (b : Block m) (i : Nat) (v : Bool) : Block m :=
  if b.getLsbD i = v then b else b ^^^ unitBlock i

/-- flip(b, l): b with bit l inverted (00_scope.md §6). -/
def flipBit {m : Nat} (b : Block m) (l : Nat) : Block m := b ^^^ unitBlock l

end Sys2Proof.Machine
end

