-- ==== Sys2Proof/Machine/Flags.lean ====
section
/-! DEFINITION. HAMCORE's only status is the syndrome and the located index of the transaction
(spec/10_state.md R13): the functions of spec/41_syndrome_locator.md R50 to R52 and the encodings of
spec/30_encoding.md R34, R35. -/

namespace Sys2Proof.Machine

/-- SYN(b), the XOR of every index whose bit is 1, as a natural in 0, …, N−1 (41_syndrome_locator.md R50, R55). -/
def syndrome {m : Nat} (b : Block m) : Nat := xorIndices (2 ^ m) fun i => b.getLsbD i

/-- popcount(b), over the whole block with index 0 (00_scope.md §6). -/
def popcount {m : Nat} (b : Block m) : Nat := countBits (2 ^ m) fun i => b.getLsbD i

/-- PAR(b) = popcount(b) mod 2, a single bit (41_syndrome_locator.md R51, R55). -/
def overallParity {m : Nat} (b : Block m) : Nat := popcount b % 2

/-- LOC(b), in −1, 0, …, N−1, signed only for the −1 (41_syndrome_locator.md R52, R55, R58). A non-zero syndrome
is returned without looking at the parity. -/
def locate {m : Nat} (b : Block m) : Int :=
  if syndrome b ≠ 0 then (syndrome b : Int)
  else if overallParity b = 1 then 0
  else -1

/-- enc2c_W(v), the W-bit two's complement encoding (00_scope.md §6). -/
def enc2c (w : Nat) (v : Int) : BitVec w := BitVec.ofInt w v

/-- The word on the `syn` port; M bits hold every syndrome (30_encoding.md R35, 41_syndrome_locator.md R55). -/
def synWord {m : Nat} (b : Block m) : SynWord m := BitVec.ofNat m (syndrome b)

/-- The word on the `loc` port (30_encoding.md R34). -/
def locWord {m : Nat} (b : Block m) : LocWord m := enc2c (m + 1) (locate b)

end Sys2Proof.Machine
end

