-- ==== Sys2Proof/Syntax.lean ====
section
/-! DEFINITION. The four operations of HAMCORE, one constructor for each row of
spec/opcode_table.json. -/

namespace Sys2Proof

/-- An operation with its one operand, the block `blk_in` (30_encoding.md R36). The operand is written
as the block's bus value Σ b[i]·2^i (R31), a natural, because the width N is a constant of the
instance that runs the operation and not of the operation; `Instr.wellFormed` checks that it fits. -/
inductive Instr where
  /-- ENC, op 00: compute every parity bit (40_encoder.md R41). -/
  | enc (blk : Nat)
  /-- SYN, op 01: report the syndrome (41_syndrome_locator.md R53). -/
  | syn (blk : Nat)
  /-- LOC, op 10: locate a single erroneous bit (41_syndrome_locator.md R54). -/
  | loc (blk : Nat)
  /-- COR, op 11: locate and correct a single erroneous bit (42_corrector.md R61). -/
  | cor (blk : Nat)
  deriving DecidableEq, Repr

/-- The bus value of an operation's operand (30_encoding.md R31). -/
def Instr.blk : Instr → Nat
  | .enc b => b
  | .syn b => b
  | .loc b => b
  | .cor b => b

end Sys2Proof
end

