-- ==== Sys2Proof/WellFormed.lean ====
section
/-! DEFINITION. Which operations an instance of block size N = 2^m can be asked for. -/

namespace Sys2Proof

/-- The operand is a block of N bits: its bus value is below 2^N (30_encoding.md R31, R39; 20_memory.md
R22). Nothing else can be ill-formed: every N-bit operand of every op is legal (R37). -/
def Instr.wellFormed (m : Nat) (i : Instr) : Bool := decide (i.blk < 2 ^ 2 ^ m)

end Sys2Proof
end

