-- ==== Sys2Proof/Decode.lean ====
section
/-! DEFINITION. Reading a request word and writing one (spec/30_encoding.md R30 to R32, R37, R38). -/

namespace Sys2Proof

/-- REQ[N+1:N], the operation select (30_encoding.md R30). -/
def opField {m : Nat} (w : Req m) : OpWord := w.extractLsb' (2 ^ m) 2

/-- REQ[N−1:0], the block operand: REQ[i] is block index i (30_encoding.md R30, R31). -/
def blkField {m : Nat} (w : Req m) : Block m := w.extractLsb' 0 (2 ^ m)

/-- The operation an `op` value selects (30_encoding.md R32). All four values are assigned (R37). -/
def instrOfOp (op : OpWord) (blk : Nat) : Instr :=
  if op = 0b00#2 then .enc blk
  else if op = 0b01#2 then .syn blk
  else if op = 0b10#2 then .loc blk
  else .cor blk

/-- The decoder: total, since no request word is reserved or illegal (30_encoding.md R37). -/
def decodeReq {m : Nat} (w : Req m) : Instr := instrOfOp (opField w) (blkField w).toNat

/-- Why a number is no request word. -/
inductive DecodeError where
  /-- It needs more than N+2 bits; every request is exactly N+2 bits (30_encoding.md R38). Raised by
  `decodeWord`. Safe: no instruction is read (log entry 15). -/
  | wordTooWide
  deriving DecidableEq, Repr

/-- The decoder on any number, for an instance with N = 2^m: a number that N+2 bits cannot hold is
rejected by name (30_encoding.md R30, R38). -/
def decodeWord (m w : Nat) : Except DecodeError Instr :=
  if w < 2 ^ (2 ^ m + 2) then .ok (decodeReq (BitVec.ofNat (2 ^ m + 2) w)) else .error .wordTooWide

/-- The `op` value of an operation (30_encoding.md R32). -/
def opcode : Instr → OpWord
  | .enc _ => 0b00#2
  | .syn _ => 0b01#2
  | .loc _ => 0b10#2
  | .cor _ => 0b11#2

/-- The encoder: op above blk_in (30_encoding.md R30). -/
def encode (m : Nat) (i : Instr) : Req m :=
  ((opcode i) ++ (BitVec.ofNat (2 ^ m) i.blk)).cast (Nat.add_comm 2 (2 ^ m))

/-- The instruction read from a word of the opcode table, at the table's own N = 16 columns: REQ is one
18-bit word, numbered from its least significant bit, so the bits `w` are the number itself. HAMCORE
handles no bytes (20_memory.md R21), so no byte order enters; bits above `nbits` are 0 (log entry 17). -/
def decodeTableWord (_nbits w : Nat) : Option Instr :=
  match decodeWord BlockSize.reference.m w with
  | .ok i => some i
  | .error _ => none

end Sys2Proof
end

