-- ==== Sys2Proof/Machine/Ops.lean ====
section
/-! DEFINITION. The named operations every meaning and the step are written with: delivering a response,
reset, and the request hold. HAMCORE has no memory and takes no exception (spec/20_memory.md R20,
spec/60_exceptions.md R80, R86), so no operation of either kind stands here. -/

namespace Sys2Proof.Machine

/-- Elaboration with block size `n`: refused (none) unless n is a power of two ≥ 2 (00_scope.md R4,
60_exceptions.md R81). -/
def elaborate (n : Nat) : Option BlockSize :=
  if h : isPow2 n = true ∧ 1 ≤ n.log2 then some ⟨n.log2, h.2⟩ else none

/-- The response is complete: every response port carries its part of `r` together, and the host receives
it (10_state.md R15, 20_memory.md R23). -/
def State.deliver (s : State) (r : Response s.m) : State :=
  { s with ports := r, delivered := s.delivered ++ [r] }

/-- One transaction: take the operand at the block port and deliver the response computed from it alone
(10_state.md R10, 20_memory.md R22, R23). -/
def respond (s : State) (blk : Nat) (f : Block s.m → Response s.m) :
    Host.Outcome State Fault Refusal :=
  match operand? s.m blk with
  | some b => .next (s.deliver (f b))
  | none => .refused .operandTooWide

/-- Reset: the ports carry their idle values, a transaction in flight is discarded and its response is not
delivered; nothing else is affected (70_reset_and_hazards.md R90). -/
def State.takeReset (s : State) : State := { s with ports := .idle s.m }

/-- The host held the request stable over the time units that `held` lists (70_reset_and_hazards.md R94). -/
def heldStable {m : Nat} (issued : Req m) (held : List (Req m)) : Bool :=
  held.all fun w => w == issued

/-- The host kept its side of the request hold: a request until its response, and one that reset interrupts until
the reset, where its transaction ends (70_reset_and_hazards.md R90, R94; log entry 4). -/
def HostEvent.stable {m : Nat} : HostEvent m → Bool
  | .request issued held => heldStable issued held
  | .reset none => true
  | .reset (some (issued, held)) => heldStable issued held

/-- The state with one more event of the host, which the next step takes. -/
def State.present (s : State) (e : HostEvent s.m) : State := { s with inbox := e :: s.inbox }

/-- The state with the number `w` presented as a request word, held stable. A number that N+2 bits cannot
hold is no request (30_encoding.md R38), and nothing is presented. -/
def State.presentWord (s : State) (w : Nat) : State :=
  if w < 2 ^ (2 ^ s.m + 2) then s.present (.request (BitVec.ofNat _ w) []) else s

end Sys2Proof.Machine
end

