-- ==== Sys2Proof/Machine/Corrector.lean ====
section
/-! DEFINITION. The bit-flipBit corrector (spec/42_corrector.md R60, R61, R66). -/

namespace Sys2Proof.Machine

/-- COR(b): the bit the locator names is flipped, or none (42_corrector.md R60). -/
def corBlock {m : Nat} (b : Block m) : Block m :=
  if 0 ≤ locate b then flipBit b (locate b).toNat else b

/-- COR: `blk_out` = COR(blk_in), `loc` = enc2c(LOC(blk_in)), `syn` = SYN(blk_in) (42_corrector.md R61,
30_encoding.md R33). -/
def execCor (blk : Nat) (s : State) : Host.Outcome State Fault Refusal :=
  respond s blk fun b => { blkOut := corBlock b, syn := synWord b, loc := locWord b }

end Sys2Proof.Machine
end

