-- ==== Sys2Proof/Machine/Encoder.lean ====
section
/-! DEFINITION. The Hamming encoder (spec/40_encoder.md R40, R41). -/

namespace Sys2Proof.Machine

/-- PARBIT(b, p): XOR of b[i] over i ≠ p with i & p ≠ 0 (40_encoder.md R40). -/
def parBit {m : Nat} (b : Block m) (p : Nat) : Bool :=
  xorBits (2 ^ m) fun i => i != p && (i &&& p) != 0 && b.getLsbD i

/-- The loop of R41 over k = 0, …, j−1: c[2^k] <- PARBIT(b, 2^k), from c = b. -/
def placeParities {m : Nat} (b : Block m) : Nat → Block m
  | 0 => b
  | k + 1 => setIndex (placeParities b k) (2 ^ k) (parBit b (2 ^ k))

/-- XOR of c[i] over 1 ≤ i < N (the last assignment of R41). -/
def restParity {m : Nat} (c : Block m) : Bool :=
  xorBits (2 ^ m) fun i => i != 0 && c.getLsbD i

/-- ENC(b) (40_encoder.md R41). -/
def encBlock {m : Nat} (b : Block m) : Block m :=
  let c := placeParities b m
  setIndex c 0 (restParity c)

/-- A codeword: a block c with c = ENC(c) (00_scope.md §7). -/
def isCodeword {m : Nat} (c : Block m) : Bool := encBlock c == c

/-- ENC: `blk_out` = ENC(blk_in), `syn` and `loc` idle (40_encoder.md R41, 30_encoding.md R33). -/
def execEnc (blk : Nat) (s : State) : Host.Outcome State Fault Refusal :=
  respond s blk fun b => { blkOut := encBlock b, syn := 0, loc := enc2c (s.m + 1) (-1) }

end Sys2Proof.Machine
end

