-- ==== Sys2Proof/Machine/Locator.lean ====
section
/-! DEFINITION. The syndrome calculator and the error locator (spec/41_syndrome_locator.md R53, R54). -/

namespace Sys2Proof.Machine

/-- SYN: `syn` = SYN(blk_in), `blk_out` and `loc` idle (41_syndrome_locator.md R53, 30_encoding.md R33). -/
def execSyn (blk : Nat) (s : State) : Host.Outcome State Fault Refusal :=
  respond s blk fun b => { blkOut := 0, syn := synWord b, loc := enc2c (s.m + 1) (-1) }

/-- LOC: `loc` = enc2c(LOC(blk_in)), `syn` = SYN(blk_in), `blk_out` idle (41_syndrome_locator.md R54,
30_encoding.md R33). -/
def execLoc (blk : Nat) (s : State) : Host.Outcome State Fault Refusal :=
  respond s blk fun b => { blkOut := 0, syn := synWord b, loc := locWord b }

end Sys2Proof.Machine
end

