-- ==== Sys2Proof/Machine/Dispatch.lean ====
section
/-! DEFINITION. One arm for each operation of the opcode table. -/

namespace Sys2Proof.Machine

/-- The meaning of one operation (spec/30_encoding.md R32, R33). -/
def exec (i : Instr) (s : State) : Host.Outcome State Fault Refusal :=
  match i with
  | .enc blk => Sys2Proof.Machine.execEnc blk s
  | .syn blk => Sys2Proof.Machine.execSyn blk s
  | .loc blk => Sys2Proof.Machine.execLoc blk s
  | .cor blk => Sys2Proof.Machine.execCor blk s

end Sys2Proof.Machine
end

