-- ==== Sys2Proof/Machine/Step.lean ====
section
/-! DEFINITION. One step of an instance: the host's next event. A step is one whole transaction
(spec/20_memory.md R23, spec/60_exceptions.md R86) or one reset. -/

namespace Sys2Proof.Machine

/-- One step. With nothing presented the instance is idle and nothing changes (log entry 6). A run that changes
a request within its transaction is refused, whether a response or a reset ends it (70_reset_and_hazards.md R94).
Otherwise a reset makes the ports idle (R90), and a request is decoded and executed. -/
def step (s : State) : Host.Outcome State Fault Refusal :=
  match s.inbox with
  | [] => .next s
  | .reset inFlight :: rest =>
    if (HostEvent.reset inFlight).stable then .next (State.takeReset { s with inbox := rest })
    else .refused .requestChanged
  | .request issued held :: rest =>
    if (HostEvent.request issued held).stable then exec (decodeReq issued) { s with inbox := rest }
    else .refused .requestChanged

/-- The state whose very next step runs the request word `w`: it is presented at the request ports ahead of
whatever the host does later. No program is stored or fetched (10_state.md R12, 20_memory.md R28): this
stands for the host presenting a request (log entry 12). -/
def State.withFetchWord (s : State) (_nbits w : Nat) : State := s.presentWord w

end Sys2Proof.Machine
end

