-- ==== Sys2Proof/Machine/Assembler.lean ====
section
/-! DEFINITION. The assembler syntax for transaction sequences (spec/30_encoding.md R39). It is a notation;
nothing of HAMCORE's step uses it. -/

namespace Sys2Proof.Machine

/-- Why the assembler refuses a line (30_encoding.md R39). Each is safe: no word is assembled. The names, and which one
a line with several faults gets, are the model's: DESIGN CHOICE (log entry 11). -/
inductive AsmError where
  /-- Raised by `assemble`: the line does not begin with a mnemonic and a space. -/
  | badMnemonic
  /-- Raised by `parseBlock` and `parseQuoted`: the block is in neither form of the grammar. -/
  | badBlock
  /-- Raised by `parseBlock`: a hex literal wider than N bits. -/
  | literalTooWide
  /-- Raised by `parseQuoted`: a quoted string not exactly N characters long. -/
  | wrongLength
  /-- Raised by `parseQuoted`: an `r` with another operation than ENC or outside the positions 0 and P. -/
  | misplacedReserved
  /-- Raised by `assemble`: something other than a comment after the block. -/
  | trailingText
  deriving DecidableEq, Repr

/-- The operation of a mnemonic (30_encoding.md R32, R39). -/
def opOfMnemonic (a b c : Char) : Option OpWord :=
  if a = 'E' ∧ b = 'N' ∧ c = 'C' then some 0b00#2
  else if a = 'S' ∧ b = 'Y' ∧ c = 'N' then some 0b01#2
  else if a = 'L' ∧ b = 'O' ∧ c = 'C' then some 0b10#2
  else if a = 'C' ∧ b = 'O' ∧ c = 'R' then some 0b11#2
  else none

/-- The double quote that opens and closes the index-ordered form. -/
def dquote : Char := Char.ofNat 34

/-- The value of a hex digit, in either letter case (log entry 11). -/
def hexDigit (c : Char) : Option Nat :=
  let v := c.toNat
  if 48 ≤ v ∧ v ≤ 57 then some (v - 48)
  else if 65 ≤ v ∧ v ≤ 70 then some (v - 55)
  else if 97 ≤ v ∧ v ≤ 102 then some (v - 87)
  else none

/-- The longest run of hex digits, as digit count and value, and the text after it. -/
def takeHex : List Char → Nat → Nat → Nat × Nat × List Char
  | [], count, v => (count, v, [])
  | c :: cs, count, v =>
    match hexDigit c with
    | some d => takeHex cs (count + 1) (16 * v + d)
    | none => (count, v, c :: cs)

/-- One character of the quoted form at index `i`: its bit, where `r` is accepted only with ENC at a parity
position and assembles as 0 (30_encoding.md R39). -/
def quotedBit (op : OpWord) (i : Nat) (c : Char) : Except AsmError Bool :=
  if c = '0' then .ok false
  else if c = '1' then .ok true
  else if c = 'r' then
    if op = 0b00#2 ∧ isParityPosition i then .ok false else .error .misplacedReserved
  else .error .badBlock

/-- The quoted form from index `i` on, after the opening quote: the bus value of the indices from `i` on
(as if `i` were 0), how many characters there are, and the text after the closing quote. -/
def parseQuoted (op : OpWord) : Nat → List Char → Except AsmError (Nat × Nat × List Char)
  | _, [] => .error .badBlock
  | i, c :: cs =>
    if c = dquote then .ok (0, 0, cs)
    else
      match quotedBit op i c with
      | .error e => .error e
      | .ok b =>
        match parseQuoted op (i + 1) cs with
        | .error e => .error e
        | .ok (v, len, rest) => .ok (b.toNat + 2 * v, len + 1, rest)

/-- The block of a line for an instance with N = 2^m: its bus value and the text after it
(30_encoding.md R39). -/
def parseBlock (m : Nat) (op : OpWord) : List Char → Except AsmError (Nat × List Char)
  | '0' :: 'x' :: cs =>
    let r := takeHex cs 0 0
    if r.1 = 0 then .error .badBlock
    else if r.2.1 < 2 ^ 2 ^ m then .ok (r.2.1, r.2.2)
    else .error .literalTooWide
  | c :: cs =>
    if c = dquote then
      match parseQuoted op 0 cs with
      | .error e => .error e
      | .ok (v, len, rest) => if len = 2 ^ m then .ok (v, rest) else .error .wrongLength
    else .error .badBlock
  | [] => .error .badBlock

/-- What may follow a block: nothing, or a comment (30_encoding.md R39). -/
def endsLine : List Char → Bool
  | [] => true
  | ' ' :: ';' :: _ => true
  | _ => false

/-- Assemble one line: REQ = opcode·2^N + busvalue(block) (30_encoding.md R39). -/
def assemble (m : Nat) : List Char → Except AsmError (Req m)
  | a :: b :: c :: ' ' :: cs =>
    match opOfMnemonic a b c with
    | none => .error .badMnemonic
    | some op =>
      match parseBlock m op cs with
      | .error e => .error e
      | .ok (v, rest) =>
        if endsLine rest then .ok (encode m (instrOfOp op v)) else .error .trailingText
  | _ => .error .badMnemonic

/-- Assemble the lines of a program in order, one transaction per line (30_encoding.md R39). The first refused line
refuses the whole program: R39 says that a literal or string is refused, and not what becomes of the lines around it.
DESIGN CHOICE (log entry 11). -/
def assembleProgram (m : Nat) : List (List Char) → Except AsmError (List (Req m))
  | [] => .ok []
  | line :: lines =>
    match assemble m line with
    | .error e => .error e
    | .ok w =>
      match assembleProgram m lines with
      | .error e => .error e
      | .ok ws => .ok (w :: ws)

/-- The mnemonic of an operation (30_encoding.md R32). -/
def mnemonicOf : Instr → List Char
  | .enc _ => ['E', 'N', 'C']
  | .syn _ => ['S', 'Y', 'N']
  | .loc _ => ['L', 'O', 'C']
  | .cor _ => ['C', 'O', 'R']

/-- The index-ordered quoted form of the N low bits of a bus value (30_encoding.md R31, R39). -/
def quoteBlock (m blk : Nat) : List Char :=
  dquote :: ((List.range (2 ^ m)).map fun i => if blk.testBit i then '1' else '0') ++ [dquote]

/-- One line of assembler text for an operation (30_encoding.md R39). -/
def printInstr (m : Nat) (i : Instr) : List Char := mnemonicOf i ++ ' ' :: quoteBlock m i.blk

end Sys2Proof.Machine
end

