-- ==== Sys2Proof/Machine/Resp.lean ====
section
/-! DEFINITION. The response function RESP as the one table of spec/30_encoding.md R33, beside the four
meanings, which are written from each operation's own rule. -/

namespace Sys2Proof.Machine

/-- RESP(op, b): what every response port carries for every op (30_encoding.md R33). -/
def resp {m : Nat} (op : OpWord) (b : Block m) : Response m :=
  { blkOut := if op = 0b00#2 then encBlock b else if op = 0b11#2 then corBlock b else 0
    syn := if op = 0b00#2 then 0 else synWord b
    loc := if op = 0b10#2 ∨ op = 0b11#2 then locWord b else BitVec.allOnes (m + 1) }

/-- RESP of a whole request word (30_encoding.md R30, R33). -/
def respReq {m : Nat} (w : Req m) : Response m := resp (opField w) (blkField w)

/-- The request word of one transaction: op above the block (30_encoding.md R30). -/
def reqOf {m : Nat} (op : OpWord) (b : Block m) : Req m := encode m (instrOfOp op b.toNat)

/-- A sequence of requests, each held stable until its response, as events of the host (20_memory.md R25). -/
def transactions {m : Nat} (ws : List (Req m)) : List (HostEvent m) := ws.map fun w => .request w []

end Sys2Proof.Machine
end

