-- ==== Sys2Proof/Machine/HostFraming.lean ====
section
/-! DEFINITION. The host software around HAMCORE (spec/45_host_framing.md R70 to R79), given by the spec for
reference and not hardware (00_scope.md R3). Nothing of HAMCORE's step uses this file. -/

namespace Sys2Proof.Machine

/-- Why the host's own software refuses or fails. HAMCORE raises none of these. Which one is answered where several
apply, other than the configuration error first, is the model's: DESIGN CHOICE (log entry 14). -/
inductive HostFault where
  /-- Raised by `encodeText` for an N that is not a power of two ≥ 2 (60_exceptions.md R81), and by the model's choice
  by `decodeText` for such an N and by `chunk` for N = 1 (log entry 14). Safe: no result. -/
  | configuration
  /-- Raised by `toBinary` for a character code above 255 (45_host_framing.md R70). Safe: no result. -/
  | characterOutOfRange
  /-- Raised by `chunk` for N = 2 and a non-empty input (45_host_framing.md R72). Safe: no result. -/
  | noDataSlot
  /-- Raised by `toAscii` for a length that is not a multiple of 8 (45_host_framing.md R71,
  60_exceptions.md R82). Safe: no result. -/
  | format
  /-- Raised by `readLoc` for a loc word with the top bit set that is not all ones
  (93_implementation_defined.md U10). Safe: HAMCORE never produces one (30_encoding.md R34). -/
  | illegalLoc
  /-- Raised by `decodeText` for a number that N bits cannot hold, which is no block (20_memory.md R22).
  Safe: no result. -/
  | blockTooWide
  deriving DecidableEq, Repr

/-- The 8 bits of a character code, most significant first (45_host_framing.md R70). -/
def byteBits (c : Nat) : List Bool := [7, 6, 5, 4, 3, 2, 1, 0].map fun k => c.testBit k

/-- The number whose binary digits, most significant first, are `bits`. -/
def ofBitsMsb (bits : List Bool) : Nat := bits.foldl (fun v b => 2 * v + b.toNat) 0

/-- toBinary: a text is the list of its character codes (45_host_framing.md R70). -/
def toBinary (text : List Nat) : Except HostFault (List Bool) :=
  if text.all (fun c => decide (c ≤ 255)) then .ok (text.flatMap byteBits)
  else .error .characterOutOfRange

/-- toAscii: groups of 8 bits, most significant first; a rest of 1 to 7 bits is a format error
(45_host_framing.md R71). -/
def toAscii : List Bool → Except HostFault (List Nat)
  | [] => .ok []
  | b7 :: b6 :: b5 :: b4 :: b3 :: b2 :: b1 :: b0 :: rest =>
    match toAscii rest with
    | .ok text => .ok (ofBitsMsb [b7, b6, b5, b4, b3, b2, b1, b0] :: text)
    | .error e => .error e
  | _ => .error .format

/-- A slot of a block under construction: a parity slot before ENC, or a data bit (45_host_framing.md R72). -/
inductive Slot where
  | reserved
  | data (b : Bool)
  deriving DecidableEq, Repr

/-- Walk the given indices in order: a parity position is reserved, a data position takes the next bit or a
zero pad. Answers the slots and the bits left over (the inner loop of 45_host_framing.md R72). -/
def fillSlots : List Nat → List Bool → List Slot × List Bool
  | [], bits => ([], bits)
  | i :: is, bits =>
    if isParityPosition i then
      let r := fillSlots is bits
      (.reserved :: r.1, r.2)
    else
      let r := fillSlots is bits.tail
      (.data (bits.headD false) :: r.1, r.2)

/-- The outer loop of R72: one block at a time until every bit is consumed. `fuel` bounds the blocks; the
number of bits is enough, since each block consumes at least one. -/
def chunkBlocks (n : Nat) : Nat → List Bool → List (List Slot)
  | 0, _ => []
  | _ + 1, [] => []
  | fuel + 1, b :: bits =>
    let r := fillSlots (List.range n) (b :: bits)
    r.1 :: chunkBlocks n fuel r.2

/-- chunk(bits, N) for N = 2^m: empty input gives no block, and N = 2 is refused on any other
(45_host_framing.md R72). R72 requires N ≥ 2 and does not say what chunk itself answers otherwise: at N = 1 (m = 0)
it answers the configuration error of 60_exceptions.md R81, whatever the input. DESIGN CHOICE (log entry 14). -/
def chunk (m : Nat) (bits : List Bool) : Except HostFault (List (List Slot)) :=
  if m = 0 then .error .configuration
  else if bits = [] then .ok []
  else if dataPositions (2 ^ m) = [] then .error .noDataSlot
  else .ok (chunkBlocks (2 ^ m) bits.length bits)

/-- The bit a slot is presented as: a reserved one as 0, by convention (45_host_framing.md R72). -/
def Slot.bit : Slot → Bool
  | .reserved => false
  | .data b => b

/-- The block whose index i carries `slots[i]` (45_host_framing.md R72, 30_encoding.md R31). -/
def presentSlots (m : Nat) (slots : List Slot) : Block m :=
  BitVec.ofNat (2 ^ m) ((slots.map Slot.bit).foldr (fun b v => b.toNat + 2 * v) 0)

/-- The data bits of a block, at dpos(0), dpos(1), … (00_scope.md R8). -/
def dataBits {m : Nat} (b : Block m) : List Bool := (dataPositions (2 ^ m)).map fun i => b.getLsbD i

/-- join(blocks): the data bits in order, cut to the largest multiple of 8 (45_host_framing.md R74). -/
def join {m : Nat} (blocks : List (Block m)) : List Bool :=
  let bits := blocks.flatMap dataBits
  bits.take (bits.length / 8 * 8)

/-- The blocks a message's ENC transactions are asked for (45_host_framing.md R75). -/
def messageBlocks (m : Nat) (text : List Nat) : Except HostFault (List (Block m)) :=
  match toBinary text with
  | .error e => .error e
  | .ok bits =>
    match chunk m bits with
    | .error e => .error e
    | .ok blocks => .ok (blocks.map (presentSlots m))

/-- encode(text, N) for an N = 2^m: one ENC for each block, in order (45_host_framing.md R75). -/
def encodeBlocks (m : Nat) (text : List Nat) : Except HostFault (List (Block m)) :=
  match messageBlocks m text with
  | .error e => .error e
  | .ok blocks => .ok (blocks.map fun b => (resp 0b00#2 b).blkOut)

/-- correctErrors(blocks): one COR for each block, in order (42_corrector.md R64). -/
def correctErrors {m : Nat} (blocks : List (Block m)) : List (Block m) :=
  blocks.map fun b => (resp 0b11#2 b).blkOut

/-- decode(blocks): COR, join, toAscii (45_host_framing.md R76). -/
def decodeBlocks {m : Nat} (blocks : List (Block m)) : Except HostFault (List Nat) :=
  toAscii (join (correctErrors blocks))

/-- encode(text, N) for any N: an invalid N is a configuration error, raised at once
(45_host_framing.md R75, 60_exceptions.md R81). Blocks are answered as bus values. -/
def encodeText (n : Nat) (text : List Nat) : Except HostFault (List Nat) :=
  match elaborate n with
  | none => .error .configuration
  | some z =>
    match encodeBlocks z.m text with
    | .error e => .error e
    | .ok blocks => .ok (blocks.map BitVec.toNat)

/-- decode(blocks) for any N, on bus values (45_host_framing.md R76). The spec says of encode alone that an invalid N
is a configuration error (60_exceptions.md R81); decode answers the same. DESIGN CHOICE (log entry 14). -/
def decodeText (n : Nat) (blocks : List Nat) : Except HostFault (List Nat) :=
  match elaborate n with
  | none => .error .configuration
  | some z =>
    if blocks.all (fun b => decide (b < 2 ^ z.n)) then decodeBlocks (blocks.map fun b => BitVec.ofNat (2 ^ z.m) b)
    else .error .blockTooWide

/-- A consumer's reading of the `loc` port: the located index, or none for "no error"
(30_encoding.md R34, 60_exceptions.md R84; 93_implementation_defined.md U10). -/
def readLoc {m : Nat} (l : LocWord m) : Except HostFault (Option Nat) :=
  if l.msb = false then .ok (some l.toNat)
  else if l = BitVec.allOnes (m + 1) then .ok none
  else .error .illegalLoc

end Sys2Proof.Machine
end

