-- ==== Sys2Proof/Machine/Platform.lean ====
section
/-! DEFINITION. Several instances of HAMCORE (spec/60_exceptions.md R87, spec/20_memory.md R25). -/

namespace Sys2Proof.Machine

/-- INSTANCES ≥ 1 instances (00_scope.md R6): they share no state and have no identifiers of their own; a
position in this list is the host's name for one (60_exceptions.md R87). A platform with no instance cannot be
built. -/
structure Platform where
  instances : List State
  nonempty : instances ≠ []
  deriving DecidableEq, Repr

/-- The number of instances (00_scope.md R6). -/
def Platform.count (p : Platform) : Nat := p.instances.length

/-- The platform of the given instances; refused (none) where there is none, since INSTANCES ≥ 1
(00_scope.md R6). -/
def Platform.build (l : List State) : Option Platform :=
  if h : l ≠ [] then some ⟨l, h⟩ else none

/-- The platform with the state `t` at position `k`. -/
def Platform.put (p : Platform) (k : Nat) (t : State) : Platform :=
  ⟨p.instances.set k t, fun h => p.nonempty ((List.set_eq_nil_iff _ _).1 h)⟩

/-- Instance `k` makes one step, the others none; none where the platform has no such instance. Which
instance steps next is the host's choice (60_exceptions.md R87; log entry 13). A request changed at instance `k`
refuses the run of the whole platform: R94 refuses "such a run" and does not say whether the runs of the other
instances, which share nothing with it, end too. DESIGN CHOICE (log entry 13). -/
def Platform.stepAt (k : Nat) (p : Platform) : Option (Host.Outcome Platform Fault Refusal) :=
  match p.instances[k]? with
  | none => none
  | some s =>
    match step s with
    | .next t => some (.next (p.put k t))
    | .fault r => some (.fault r)
    | .refused r => some (.refused r)

/-- Deal the blocks of a message to instances, each with its place in the message (60_exceptions.md R87). -/
def tagBlocks {α : Type} (blocks : List α) : List (Nat × α) := blocks.zipIdx.map fun p => (p.2, p.1)

/-- Put tagged results back in block order: the result with tag 0, then 1, …, up to `count`
(20_memory.md R25, 45_host_framing.md R77; log entry 18). -/
def restoreOrder {α : Type} (count : Nat) (tagged : List (Nat × α)) : List α :=
  (List.range count).filterMap fun i => tagged.lookup i

/-- What a conforming transport may do to one block: at most one flipped bit (45_host_framing.md R77). -/
def atMostOneFlip {m : Nat} (sent received : Block m) : Prop :=
  received = sent ∨ ∃ j, j < 2 ^ m ∧ received = flipBit sent j

end Sys2Proof.Machine
end

