-- ==== Sys2Proof/Safety.lean ====
section
/-! DEFINITION. The terms in which claims about a run are made. -/

namespace Sys2Proof.Machine

/-- A `loc` word HAMCORE may show: all ones, or an index with the top bit clear (30_encoding.md R34). -/
def legalLoc {m : Nat} (l : LocWord m) : Prop := l.msb = true → l = BitVec.allOnes (m + 1)

/-- A response HAMCORE may show: `loc` is legal, and where `loc` names an index and the syndrome is not 0,
that index is the syndrome (30_encoding.md R34, 41_syndrome_locator.md R52). -/
def Response.Legal {m : Nat} (r : Response m) : Prop :=
  legalLoc r.loc ∧ (r.loc.msb = false → r.syn.toNat ≠ 0 → r.loc.toNat = r.syn.toNat)

/-- The invariant of HAMCORE's boundary: the ports and every delivered response are legal, and the ports
carry the idle values or the last response delivered (30_encoding.md R33, R34; 70_reset_and_hazards.md R90). -/
structure State.BoundaryInv (s : State) : Prop where
  ports_legal : s.ports.Legal
  delivered_legal : ∀ r ∈ s.delivered, Response.Legal r
  ports_idle_or_last : s.ports = .idle s.m ∨ s.delivered.getLast? = some s.ports

/-- What the host is going to do never makes the run meaningless: no request changed within its transaction
(70_reset_and_hazards.md R94). -/
def SafeInbox {m : Nat} (events : List (HostEvent m)) : Prop := ∀ e ∈ events, HostEvent.stable e = true

end Sys2Proof.Machine
end

