-- ==== Sys2Proof/Certificates/Slice0/Obligations.lean ====
section
/-! DEFINITION. The statements about HAMCORE, from the numbered rules of spec/. Every one quantifies over
every block size N = 2^m, m ≥ 1, unless it names one; those about blocks alone hold at m = 0 too, where no instance
exists (log entry 20). -/

open Sys2Proof Sys2Proof.Machine

/-! ## The spec's own vocabulary, written without the model's functions -/

namespace Sys2Proof.Claims

/-- The indices whose bit is 1. -/
def ones {m : Nat} (b : Block m) : Finset Nat := (Finset.range (2 ^ m)).filter fun i => b.getLsbD i = true

/-- The modulo-2 sum of as many ones as the set has members (40_encoder.md R40). -/
def oddly (t : Finset Nat) : Bool := decide (t.card % 2 = 1)

/-- Index i carries a data bit: it is neither 0 nor a power of two (00_scope.md R7). -/
def DataIndex (i : Nat) : Prop := i ≠ 0 ∧ ∀ k, i ≠ 2 ^ k

/-- The bitwise XOR of a list of indices (00_scope.md §6). -/
def xorAll (is : List Nat) : Nat := is.foldl (· ^^^ ·) 0

/-- The indices whose bit is 1, ascending. -/
def onesList {m : Nat} (b : Block m) : List Nat := (List.range (2 ^ m)).filter fun i => b.getLsbD i

/-- REQ = op·2^N + busvalue(blk_in) (30_encoding.md R30). -/
def packed {m : Nat} (op : Nat) (b : Block m) : Req m := BitVec.ofNat (2 ^ m + 2) (op * 2 ^ 2 ^ m + b.toNat)

/-- The state after a response r: the ports carry it, the host has received it, nothing else changed. -/
def after (s : State) (r : Response s.m) : State := { s with ports := r, delivered := s.delivered ++ [r] }

/-- y is the syndrome of b: the XOR of the indices of its ones, whose bit k is the modulo-2 sum of the bits at
indices with bit k set (41_syndrome_locator.md R50). -/
def IsSyndrome {m : Nat} (b : Block m) (y : SynWord m) : Prop :=
  y.toNat = xorAll (onesList b) ∧
  ∀ k < m, y.getLsbD k = oddly ((ones b).filter fun i => i.testBit k = true)

/-- l is the locator result of b with syndrome y, in two's complement (41_syndrome_locator.md R52,
30_encoding.md R34). -/
def IsLocation {m : Nat} (b : Block m) (y : SynWord m) (l : LocWord m) : Prop :=
  (y.toNat ≠ 0 → l.toNat = y.toNat) ∧
  (y.toNat = 0 → (ones b).card % 2 = 1 → l.toNat = 0) ∧
  (y.toNat = 0 → (ones b).card % 2 = 0 → l = BitVec.allOnes (m + 1))

/-- No transaction is in flight, or one whose request the ports have carried at every time unit since issue
(70_reset_and_hazards.md R94). -/
def StableInFlight {m : Nat} (inFlight : Option (Req m × List (Req m))) : Prop :=
  inFlight = none ∨ ∃ w held, inFlight = some (w, held) ∧ ∀ x ∈ held, x = w

/-- The hex digit of a value below 16, as the spec writes it (30_encoding.md R39). -/
def hexChar (d : Nat) : Char :=
  ['0', '1', '2', '3', '4', '5', '6', '7', '8', '9', 'A', 'B', 'C', 'D', 'E', 'F'].getD d '0'

/-- The number that a sequence of hex digits writes, the most significant first. -/
def hexValue (ds : List Nat) : Nat := ds.foldl (fun v d => 16 * v + d) 0

/-- What may follow the block of an assembler line: nothing, or a comment (30_encoding.md R39). -/
def LineEnd (tail : List Char) : Prop := tail = [] ∨ ∃ comment, tail = ' ' :: ';' :: comment

/-- A character that index i of a quoted block may have under op: a bit, or with ENC an r at 0 or a power of
two (30_encoding.md R39). -/
def QuotedCharFits (op : OpWord) (i : Nat) (c : Char) : Prop :=
  c = '0' ∨ c = '1' ∨ (c = 'r' ∧ op = 0b00#2 ∧ ¬ DataIndex i)

/-- A line of assembler text with a quoted block: mnemonic, space, the quoted characters, the rest. -/
def quotedLine (i : Instr) (cs tail : List Char) : List Char :=
  mnemonicOf i ++ ' ' :: dquote :: (cs ++ dquote :: tail)

end Sys2Proof.Claims

open Sys2Proof.Claims

/-! ## Requests and their encoding -/

/-- Words written out from the encoding, at N = 16, 8, 4 and 2 (30_encoding.md R30, R32; 95_test_vectors.md
V-RESP, P3, P4). -/
def Obligations.RequestWordsDecodeAsWritten : Prop :=
  decodeReq (m := 4) 0b00_1100001001100000#18 = .enc 0xC260 ∧
  decodeReq (m := 4) 0b01_1100011101100110#18 = .syn 0xC766 ∧
  decodeReq (m := 4) 0b10_1100011101100110#18 = .loc 0xC766 ∧
  decodeReq (m := 4) 0b11_1100011101100110#18 = .cor 0xC766 ∧
  decodeReq (m := 3) 0b11_01000001#10 = .cor 0x41 ∧
  decodeReq (m := 2) 0b10_0000#6 = .loc 0 ∧
  decodeReq (m := 1) 0b01_11#4 = .syn 3

/-- R30, R31: REQ[N+1:N] is op and REQ[i] is block index i; the packed value is op·2^N + busvalue, and the bus
value is Σ b[i]·2^i. The examples of both rules at N = 16. -/
def Obligations.RequestFieldsByPosition : Prop :=
  (∀ (m : Nat) (w : Req m),
    (∀ j < 2, (opcode (decodeReq w)).getLsbD j = w.getLsbD (2 ^ m + j)) ∧
    (∀ i < 2 ^ m, (decodeReq w).blk.testBit i = w.getLsbD i) ∧
    (decodeReq w).blk = ∑ i ∈ Finset.range (2 ^ m), (w.getLsbD i).toNat * 2 ^ i ∧
    w.toNat = (opcode (decodeReq w)).toNat * 2 ^ 2 ^ m + (decodeReq w).blk) ∧
  (2 ^ 4 + 2 = 18 ∧
    ∀ i < 16, (0xC366#(2 ^ 4) : Block 4).getLsbD i =
      ([false, true, true, false, false, true, true, false, true, true, false, false, false, false, true,
        true].getD i false))

/-- R32: which operation each op value selects, for every block operand. -/
def Obligations.OpValueSelectsOperation : Prop :=
  ∀ (m : Nat) (b : Block m),
    decodeReq (packed 0 b) = .enc b.toNat ∧ decodeReq (packed 1 b) = .syn b.toNat ∧
    decodeReq (packed 2 b) = .loc b.toNat ∧ decodeReq (packed 3 b) = .cor b.toNat

/-- R37: no encoding is reserved or illegal: every number below 2^(N+2) decodes, to a well-formed operation,
which the encoder writes as that same number. -/
def Obligations.EveryRequestWordIsLegal : Prop :=
  ∀ (m w : Nat), w < 2 ^ (2 ^ m + 2) →
    ∃ i, decodeWord m w = .ok i ∧ i.wellFormed m = true ∧ (encode m i).toNat = w

/-- Decoding an encoded operation gives it back, for every operation and every operand that N bits hold. -/
def Obligations.DecodeEncodeRoundTrip : Prop :=
  ∀ (m : Nat) (i : Instr), i.wellFormed m = true →
    decodeReq (encode m i) = i ∧ decodeWord m (encode m i).toNat = .ok i

/-- A number that N+2 bits cannot hold is no request and is rejected by name. The rejection is the model's
reading of R38 (log entry 15). -/
def Obligations.OverlongWordRejected : Prop :=
  ∀ (m w : Nat), decodeWord m w = .error .wordTooWide ↔ 2 ^ (2 ^ m + 2) ≤ w

/-! ## What each operation does -/

/-- R40, R41: ENC with its encoding, response, corner cases and worked example. -/
def Obligations.EncComputesEveryParityBit : Prop :=
  ∀ (s : State) (b : Block s.m),
    decodeReq (packed 0 b) = .enc b.toNat ∧
    ∃ c : Block s.m, exec (.enc b.toNat) s = .next (after s ⟨c, 0, BitVec.allOnes (s.m + 1)⟩) ∧
      (∀ i < 2 ^ s.m, DataIndex i → c.getLsbD i = b.getLsbD i) ∧
      (∀ k < s.m, c.getLsbD (2 ^ k) = oddly ((ones b).filter fun i => i ≠ 2 ^ k ∧ i &&& 2 ^ k ≠ 0)) ∧
      c.getLsbD 0 = oddly ((ones c).filter fun i => 1 ≤ i) ∧
      ((∀ i < 2 ^ s.m, DataIndex i → b.getLsbD i = false) → c = 0) ∧
      (2 ≤ s.m → (∀ i < 2 ^ s.m, DataIndex i → b.getLsbD i = true) → c = BitVec.allOnes (2 ^ s.m)) ∧
      (s.m = 1 → c = 0) ∧
      (isCodeword b = true → c = b) ∧
      (∀ b' : Block s.m, (∀ i < 2 ^ s.m, DataIndex i → b'.getLsbD i = b.getLsbD i) →
        exec (.enc b'.toNat) s = exec (.enc b.toNat) s) ∧
      (s.m = 4 → b.toNat = 0xC260 → c.toNat = 0xC366)

/-- R50, R53: SYN with its encoding, response, corner cases and worked example. -/
def Obligations.SynReportsTheSyndrome : Prop :=
  ∀ (s : State) (b : Block s.m),
    decodeReq (packed 1 b) = .syn b.toNat ∧
    ∃ y : SynWord s.m, exec (.syn b.toNat) s = .next (after s ⟨0, y, BitVec.allOnes (s.m + 1)⟩) ∧
      IsSyndrome b y ∧
      (isCodeword b = true → y = 0) ∧
      (2 ≤ s.m → b = BitVec.allOnes (2 ^ s.m) → y = 0) ∧
      (s.m = 1 → b = BitVec.allOnes (2 ^ s.m) → y.toNat = 1) ∧
      (∀ c : Block s.m, isCodeword c = true → b = flipBit c 0 → y = 0) ∧
      (s.m = 4 → b.toNat = 0xC766 → y.toNat = 10)

/-- R52, R54: LOC with its encoding, response, corner cases and worked examples. -/
def Obligations.LocReportsTheLocation : Prop :=
  ∀ (s : State) (b : Block s.m),
    decodeReq (packed 2 b) = .loc b.toNat ∧
    ∃ (y : SynWord s.m) (l : LocWord s.m), exec (.loc b.toNat) s = .next (after s ⟨0, y, l⟩) ∧
      IsSyndrome b y ∧ IsLocation b y l ∧
      (isCodeword b = true → l = BitVec.allOnes (s.m + 1)) ∧
      (∀ c : Block s.m, isCodeword c = true → ∀ j < 2 ^ s.m, b = flipBit c j → l.toNat = j) ∧
      (b = 0 → l = BitVec.allOnes (s.m + 1)) ∧
      (s.m = 1 → b.toNat = 3 → l.toNat = 1) ∧
      (s.m = 4 → b.toNat = 0xC766 → l.toNat = 0x0A) ∧
      (s.m = 4 → b.toNat = 0xC367 → l.toNat = 0) ∧
      (s.m = 4 → b.toNat = 0xC366 → l.toNat = 0x1F)

/-- R60, R61: COR with its encoding, response, corner cases and worked example. -/
def Obligations.CorFlipsTheLocatedBit : Prop :=
  ∀ (s : State) (b : Block s.m),
    decodeReq (packed 3 b) = .cor b.toNat ∧
    ∃ (c : Block s.m) (y : SynWord s.m) (l : LocWord s.m),
      exec (.cor b.toNat) s = .next (after s ⟨c, y, l⟩) ∧
      IsSyndrome b y ∧ IsLocation b y l ∧
      (l = BitVec.allOnes (s.m + 1) → c = b) ∧
      (l ≠ BitVec.allOnes (s.m + 1) → l.toNat < 2 ^ s.m ∧
        ∀ i < 2 ^ s.m, c.getLsbD i = if i = l.toNat then !b.getLsbD i else b.getLsbD i) ∧
      (isCodeword b = true → c = b ∧ l = BitVec.allOnes (s.m + 1)) ∧
      (∀ d : Block s.m, isCodeword d = true → b = flipBit d 0 → c = d ∧ l.toNat = 0) ∧
      (b = 0 → c = 0) ∧
      (s.m = 1 → b.toNat = 1 → c.toNat = 0) ∧
      (s.m = 1 → b.toNat = 3 → c.toNat = 1) ∧
      (s.m = 4 → b.toNat = 0xC766 → c.toNat = 0xC366 ∧ l.toNat = 0x0A ∧ y.toNat = 10)

/-- R33: the response table, row by row, for every request word. -/
def Obligations.ResponseTableOfEveryOp : Prop :=
  ∀ (s : State) (w : Req s.m),
    (opField w = 0b00#2 → exec (decodeReq w) s =
      .next (after s ⟨encBlock (blkField w), 0, enc2c (s.m + 1) (-1)⟩)) ∧
    (opField w = 0b01#2 → exec (decodeReq w) s =
      .next (after s ⟨0, BitVec.ofNat s.m (syndrome (blkField w)), enc2c (s.m + 1) (-1)⟩)) ∧
    (opField w = 0b10#2 → exec (decodeReq w) s =
      .next (after s ⟨0, BitVec.ofNat s.m (syndrome (blkField w)),
        enc2c (s.m + 1) (locate (blkField w))⟩)) ∧
    (opField w = 0b11#2 → exec (decodeReq w) s =
      .next (after s ⟨corBlock (blkField w), BitVec.ofNat s.m (syndrome (blkField w)),
        enc2c (s.m + 1) (locate (blkField w))⟩))

/-- R80: every request, in all 2^(N+2) combinations, has a response, and no step raises an exception. -/
def Obligations.EveryRequestHasAResponse : Prop :=
  (∀ (s : State) (op : Nat) (b : Block s.m), op < 4 →
    ∃ r : Response s.m, exec (decodeReq (packed op b)) s = .next (after s r)) ∧
  ∀ (s : State) (f : Fault), step s ≠ .fault f

/-- An operand wider than N bits, which no request word carries, is refused by name by every operation: the
model's choice (log entry 2). -/
def Obligations.WideOperandRefused : Prop :=
  ∀ (s : State) (i : Instr), i.wellFormed s.m = false ↔ exec i s = .refused .operandTooWide

/-- The frame of ENC, SYN, LOC and COR: only the response ports and the host's record change, the record by
the one response the ports carry; block size and pending events stay. -/
def Obligations.OperationsChangeOnlyTheResponse : Prop :=
  ∀ (i : Instr) (s t : State), exec i s = .next t → ∃ r : Response s.m, t = after s r

/-! ## Laws of ENC -/

/-- R42: the reserved positions are never read, PARBIT reads data positions only, and the parity bits may be
computed in any order, from the block as filled so far. -/
def Obligations.EncIgnoresReservedPositions : Prop :=
  (∀ (s : State) (a b : Block s.m), (∀ i < 2 ^ s.m, DataIndex i → a.getLsbD i = b.getLsbD i) →
    exec (.enc a.toNat) s = exec (.enc b.toNat) s ∧ ∀ k < s.m, parBit a (2 ^ k) = parBit b (2 ^ k)) ∧
  ∀ (m : Nat) (b : Block m) (order : List Nat), order.Perm (parityPositions m) →
    order.foldl (fun c p => setIndex c p (parBit c p)) b = placeParities b m

/-- R43: ENC changes only positions 0 and P. -/
def Obligations.EncKeepsDataPositions : Prop :=
  ∀ (m : Nat) (b : Block m) (i : Nat), i < 2 ^ m →
    (i ∈ dataPositions (2 ^ m) → (encBlock b).getLsbD i = b.getLsbD i) ∧
    ((encBlock b).getLsbD i ≠ b.getLsbD i → i = 0 ∨ i ∈ parityPositions m)

/-- R44: what holds of every codeword c = ENC(b), said of the operations: it has an even number of ones; SYN
gives 0, LOC gives −1, ENC and COR give c back, whatever the state they run in. -/
def Obligations.CodewordLaws : Prop :=
  ∀ (s : State) (b : Block s.m), ∃ c : Block s.m,
    exec (.enc b.toNat) s = .next (after s ⟨c, 0, BitVec.allOnes (s.m + 1)⟩) ∧
    (ones c).card % 2 = 0 ∧
    ∀ (ports : Response s.m) (inbox : List (HostEvent s.m)) (delivered : List (Response s.m)),
      let u : State := ⟨s.size, ports, inbox, delivered⟩
      exec (.syn c.toNat) u = .next (after u ⟨0, 0, BitVec.allOnes (s.m + 1)⟩) ∧
      exec (.loc c.toNat) u = .next (after u ⟨0, 0, BitVec.allOnes (s.m + 1)⟩) ∧
      exec (.enc c.toNat) u = .next (after u ⟨c, 0, BitVec.allOnes (s.m + 1)⟩) ∧
      exec (.cor c.toNat) u = .next (after u ⟨c, 0, BitVec.allOnes (s.m + 1)⟩)

/-- R45: ENC is linear, a codeword is the XOR of the codewords of its data bits, and the eleven codewords of
single data bits at N = 16. -/
def Obligations.EncIsLinear : Prop :=
  (∀ (m : Nat) (a b : Block m), encBlock (a ^^^ b) = encBlock a ^^^ encBlock b) ∧
  (∀ m : Nat, encBlock (0 : Block m) = 0) ∧
  (∀ (m : Nat) (b : Block m), encBlock b =
    ((dataPositions (2 ^ m)).filter fun i => b.getLsbD i).foldl (fun c i => c ^^^ encBlock (unitBlock i)) 0) ∧
  (dataPositions (2 ^ 4)).map (fun i => (encBlock (unitBlock i : Block 4)).toNat) =
    [0x000F, 0x0033, 0x0055, 0x0096, 0x0303, 0x0505, 0x0906, 0x1111, 0x2112, 0x4114, 0x8117]

/-- R46: ENC at N = 2 and N = 4, and on all-ones data. -/
def Obligations.EncCornerCasesByBlockSize : Prop :=
  (dataPositions (2 ^ 1) = [] ∧ ∀ b : Block 1, parBit b 1 = false ∧ encBlock b = 0) ∧
  (∀ b : Block 2, encBlock b = if b.getLsbD 3 = true then 0xF else 0x0) ∧
  ∀ (m : Nat) (b : Block m), 2 ≤ m → (∀ i < 2 ^ m, DataIndex i → b.getLsbD i = true) →
    (∀ k < m, ((Finset.range (2 ^ m)).filter fun i => i ≠ 2 ^ k ∧ i &&& 2 ^ k ≠ 0).card = 2 ^ m / 2 - 1 ∧
      parBit b (2 ^ k) = true) ∧
    encBlock b = BitVec.allOnes (2 ^ m)

/-! ## Laws of SYN, PAR and LOC -/

/-- R50: SYN(b) as an XOR of indices and bit by bit; index 0 never contributes; the all-zero block; linearity. -/
def Obligations.SyndromeIsXorOfSetIndices : Prop :=
  ∀ (m : Nat) (b : Block m),
    syndrome b = xorAll (onesList b) ∧
    (∀ k < m, (syndrome b).testBit k = oddly ((ones b).filter fun i => i.testBit k = true)) ∧
    (∀ v, syndrome (setIndex b 0 v) = syndrome b) ∧
    syndrome (0 : Block m) = 0 ∧
    ∀ a : Block m, syndrome (a ^^^ b) = syndrome a ^^^ syndrome b

/-- R51: PAR(b) is the count of ones modulo 2, index 0 included, and the XOR of all the bits. -/
def Obligations.OverallParityIsCountModTwo : Prop :=
  ∀ (m : Nat) (b : Block m),
    overallParity b = (ones b).card % 2 ∧
    overallParity b = (((List.range (2 ^ m)).map fun i => b.getLsbD i).foldl Bool.xor false).toNat

/-- R34, R35, R58: the range of LOC and the encodings of the two status ports. `loc` has its top bit set for −1
alone, `syn` never truncates, and a located index is one that COR can flip. -/
def Obligations.StatusPortEncodings : Prop :=
  (∀ (m : Nat) (b : Block m),
    (synWord b).toNat = syndrome b ∧ syndrome b < 2 ^ m ∧
    ((locate b = -1 ∧ locWord b = BitVec.allOnes (m + 1)) ∨
      ∃ l : Nat, locate b = l ∧ l < 2 ^ m ∧ (locWord b).toNat = l ∧ (locWord b).getLsbD m = false ∧
        corBlock b = flipBit b l) ∧
    ((locWord b).getLsbD m = true ↔ locate b = -1)) ∧
  enc2c 2 (-1) = 0x3#2 ∧ enc2c 3 (-1) = 0x7#3 ∧ enc2c 4 (-1) = 0xF#4 ∧ enc2c 5 (-1) = 0x1F#5 ∧
  enc2c 6 (-1) = 0x3F#6

/-- R56: on every codeword LOC finds no error, and on every codeword with one flipped bit exactly that index,
in every state. -/
def Obligations.SingleErrorIsLocated : Prop :=
  ∀ (s : State) (c : Block s.m), isCodeword c = true →
    (∃ y, exec (.loc c.toNat) s = .next (after s ⟨0, y, enc2c (s.m + 1) (-1)⟩)) ∧
    ∀ j < 2 ^ s.m, ∃ y : SynWord s.m, y.toNat = j ∧
      exec (.loc (flipBit c j).toNat) s = .next (after s ⟨0, y, BitVec.ofNat (s.m + 1) j⟩)

/-- R57: a codeword with the bits of a set E flipped. The flips are the ones of e, the block Σ e_j over E. That the
results are exact, where the source says "undefined", is the reading of 90_conflicts.md C2 (log entry 16). -/
def Obligations.MultipleErrorsFollowTheProcedure : Prop :=
  ∀ (m : Nat) (c e : Block m), isCodeword c = true →
    let b := c ^^^ e
    syndrome b = xorAll (onesList e) ∧
    overallParity b = (ones e).card % 2 ∧
    (∀ i j : Nat, i < 2 ^ m → j < 2 ^ m → i ≠ j → ones e = insert i (singleton j) →
      i ^^^ j ≠ 0 ∧ locate b = ((i ^^^ j : Nat) : Int) ∧
      (i = 0 → locate b = j) ∧
      (i ≠ 0 → j ≠ 0 → i ^^^ j ≠ i ∧ i ^^^ j ≠ j)) ∧
    ((ones e).card % 2 = 0 → xorAll (onesList e) = 0 → locate b = -1) ∧
    ((ones e).card % 2 = 1 → xorAll (onesList e) = 0 → locate b = 0) ∧
    (xorAll (onesList e) ≠ 0 → locate b = (xorAll (onesList e) : Int))

/-- R84: "no error" is a value: it is all ones on `loc`, no index is encoded so, and COR then returns the block.
A consumer reads back exactly what LOC found: how a consumer reads `loc` is the model's `readLoc`, DEDUCED from R34
and 93_implementation_defined.md U10 (log entry 19), and no part of R84. -/
def Obligations.NoErrorIsAValue : Prop :=
  ∀ (m : Nat) (b : Block m),
    (locWord b = BitVec.allOnes (m + 1) ↔ locate b = -1) ∧
    (∀ l : Nat, l < 2 ^ m → enc2c (m + 1) (l : Int) ≠ BitVec.allOnes (m + 1)) ∧
    (locate b = -1 → corBlock b = b ∧ readLoc (locWord b) = .ok none) ∧
    ∀ l : Nat, locate b = l → readLoc (locWord b) = .ok (some l)

/-! ## Laws of COR -/

/-- R62, R63: ENC, then at most one flipped bit, then COR gives the codeword back, with COR run in any state of
the same instance. -/
def Obligations.SingleErrorIsCorrected : Prop :=
  ∀ (s : State) (b : Block s.m), ∃ c : Block s.m,
    exec (.enc b.toNat) s = .next (after s ⟨c, 0, BitVec.allOnes (s.m + 1)⟩) ∧
    ∀ (ports : Response s.m) (inbox : List (HostEvent s.m)) (delivered : List (Response s.m))
      (received : Block s.m), (received = c ∨ ∃ j < 2 ^ s.m, received = c ^^^ unitBlock j) →
      let u : State := ⟨s.size, ports, inbox, delivered⟩
      ∃ y l, exec (.cor received.toNat) u = .next (after u ⟨c, y, l⟩)

/-- R65: two or more flipped bits. The three bullets of the rule on COR's block; then, for every set of two or more
flipped positions (the ones of e), the whole response of COR: the bit at LOC flipped, syn and loc as R57 gives them.
It signals nothing on syn and loc: the same syn and loc are the response to some block with at most one flipped bit,
so those two ports do not tell the two apart (blk_out may differ from every codeword, and nothing here says otherwise).
That the results are exact is the reading of 90_conflicts.md C2 (log entry 16). -/
def Obligations.MiscorrectionIsSilent : Prop :=
  (∀ (m : Nat) (c : Block m), isCodeword c = true →
    (∀ i j : Nat, i < 2 ^ m → j < 2 ^ m → i ≠ j → i ≠ 0 → j ≠ 0 →
      corBlock (flipBit (flipBit c i) j) = flipBit (flipBit (flipBit c i) j) (i ^^^ j) ∧
      (ones (corBlock (flipBit (flipBit c i) j) ^^^ c)).card = 3) ∧
    (∀ j : Nat, j < 2 ^ m → j ≠ 0 → corBlock (flipBit (flipBit c 0) j) = flipBit c 0) ∧
    ∀ e : Block m, (ones e).card % 2 = 0 → xorAll (onesList e) = 0 → corBlock (c ^^^ e) = c ^^^ e) ∧
  ∀ (s : State) (c e : Block s.m), isCodeword c = true → 2 ≤ (ones e).card →
    ∃ r : Response s.m, exec (.cor (c ^^^ e).toNat) s = .next (after s r) ∧
      r.syn.toNat = xorAll (onesList e) ∧
      (xorAll (onesList e) ≠ 0 →
        r.blkOut = flipBit (c ^^^ e) (xorAll (onesList e)) ∧ r.loc.toNat = xorAll (onesList e)) ∧
      (xorAll (onesList e) = 0 → (ones e).card % 2 = 1 →
        r.blkOut = flipBit (c ^^^ e) 0 ∧ r.loc.toNat = 0) ∧
      (xorAll (onesList e) = 0 → (ones e).card % 2 = 0 →
        r.blkOut = c ^^^ e ∧ r.loc = BitVec.allOnes (s.m + 1)) ∧
      ∃ (b' : Block s.m) (r' : Response s.m), atMostOneFlip c b' ∧
        exec (.cor b'.toNat) s = .next (after s r') ∧ r'.syn = r.syn ∧ r'.loc = r.loc

/-! ## The machine -/

/-- A request at the head of the inbox that the host holds stable is decoded and executed, with the event taken
from the inbox; nothing else is around it. -/
def Obligations.StepRunsTheDecodedRequest : Prop :=
  ∀ (s : State) (w : Req s.m) (held : List (Req s.m)) (rest : List (HostEvent s.m)),
    s.inbox = .request w held :: rest → (∀ x ∈ held, x = w) →
    step s = exec (decodeReq w) { s with inbox := rest }

/-- The request at the head of the inbox presents i: from REQ written by the encoder, a step is exec of i. -/
def Obligations.StepRunsTheEncodedInstruction : Prop :=
  ∀ (s : State) (i : Instr), i.wellFormed s.m = true →
    step (s.withFetchWord (2 ^ s.m + 2) (encode s.m i).toNat) = exec i s

/-- R94: the request is sampled whole at issue: held stable, it gets the response of the word issued; changed
before its response it has no meaning, and the run is refused. That a change before a reset that interrupts the
transaction refuses the run too is DEDUCED (log entries 4 and 5), and not said of resets by R94. -/
def Obligations.ChangedRequestIsRefused : Prop :=
  ∀ (s : State) (w : Req s.m) (held : List (Req s.m)) (rest : List (HostEvent s.m)),
    (s.inbox = .request w held :: rest →
      (step s = .refused .requestChanged ↔ ∃ x ∈ held, x ≠ w) ∧
      ((∀ x ∈ held, x = w) → step s = .next (after { s with inbox := rest } (respReq w)))) ∧
    (s.inbox = .reset (some (w, held)) :: rest →
      (step s = .refused .requestChanged ↔ ∃ x ∈ held, x ≠ w))

/-- R93: the delay from request to response changes nothing: a request held for any two numbers of time units
gives the same step. -/
def Obligations.LatencyChangesNothing : Prop :=
  ∀ (s : State) (w : Req s.m) (latency latency' : Nat),
    step (s.present (.request w (List.replicate latency w))) =
      step (s.present (.request w (List.replicate latency' w)))

/-- R90: after reset the ports are idle. A reset event, whatever the host does after it, makes the ports idle,
delivers no response for the transaction it interrupts, and changes nothing else; the request after it, held for any
number of time units, is answered as it would have been without the reset. A transaction in flight is one that the
host has held stable until then; ChangedRequestIsRefused says what happens to a run that has not (R94). -/
def Obligations.ResetDiscardsTheTransaction : Prop :=
  (∀ z : BlockSize, (State.resetOf z).ports = ⟨0, 0, BitVec.allOnes (z.m + 1)⟩) ∧
  (∀ (s : State) (inFlight : Option (Req s.m × List (Req s.m))) (rest : List (HostEvent s.m)),
    s.inbox = .reset inFlight :: rest → StableInFlight inFlight →
    step s = .next { s with ports := ⟨0, 0, BitVec.allOnes (s.m + 1)⟩, inbox := rest }) ∧
  ∀ (s : State) (inFlight : Option (Req s.m × List (Req s.m))) (w : Req s.m) (held : List (Req s.m))
    (rest : List (HostEvent s.m)),
    s.inbox = .reset inFlight :: .request w held :: rest → StableInFlight inFlight → (∀ x ∈ held, x = w) →
    ∃ r : Response s.m, exec (decodeReq w) s = .next (after s r) ∧
      Host.Core.run Sys2Proof.core 2 s = .next (after { s with inbox := rest } r)

/-- With nothing presented the instance idles: the model's choice (log entry 6). -/
def Obligations.IdleStepChangesNothing : Prop :=
  ∀ s : State, s.inbox = [] → step s = .next s

/-- R10, R23: the response of a request is a function of the block size and the request alone. -/
def Obligations.ResponseDependsOnRequestAlone : Prop :=
  ∀ (z : BlockSize) (w : Req z.m), ∃ r : Response z.m,
    ∀ (ports : Response z.m) (inbox : List (HostEvent z.m)) (delivered : List (Response z.m)),
      exec (decodeReq w) ⟨z, ports, inbox, delivered⟩ = .next ⟨z, r, inbox, delivered ++ [r]⟩

/-- R25 for one instance: k requests, each held for any number of time units, are answered in order, one response
each, and the k-th response is RESP of the k-th request. -/
def Obligations.ResponsesComeInRequestOrder : Prop :=
  ∀ (s : State) (ws : List (Req s.m × Nat)) (rest : List (HostEvent s.m)),
    s.inbox = (ws.map fun p => HostEvent.request p.1 (List.replicate p.2 p.1)) ++ rest →
    Host.Core.run Sys2Proof.core ws.length s = .next
      { s with
        ports := ((ws.map fun p => respReq p.1).getLast?).getD s.ports
        inbox := rest
        delivered := s.delivered ++ ws.map fun p => respReq p.1 }

/-- R64: correcting a message is one COR per block in order, and output block k is COR of input block k alone. -/
def Obligations.MessageCorrectionIsBlockwise : Prop :=
  ∀ (s : State) (blocks : List (Block s.m)),
    s.inbox = (blocks.map fun b => HostEvent.request (packed 3 b) []) →
    ∃ (ports : Response s.m) (rs : List (Response s.m)),
      Host.Core.run Sys2Proof.core blocks.length s =
        .next { s with ports := ports, inbox := [], delivered := s.delivered ++ rs } ∧
      rs.map Response.blkOut = blocks.map corBlock

/-- The headline: a message of codewords, each with at most one bit flipped on its way, comes back whole from a
run of COR transactions. -/
def Obligations.CorruptedMessageIsRestored : Prop :=
  ∀ (s : State) (message : List (Block s.m × Block s.m)),
    (∀ p ∈ message, isCodeword p.1 = true ∧ atMostOneFlip p.1 p.2) →
    s.inbox = (message.map fun p => HostEvent.request (packed 3 p.2) []) →
    ∃ (ports : Response s.m) (rs : List (Response s.m)),
      Host.Core.run Sys2Proof.core message.length s =
        .next { s with ports := ports, inbox := [], delivered := s.delivered ++ rs } ∧
      rs.map Response.blkOut = message.map Prod.fst

/-- The boundary invariant is kept by every step: no illegal `loc` word, and no port value but the idle ones or
the last response. That the ports keep the last response is the model's choice (log entry 8). -/
def Obligations.BoundaryInvariantIsKept : Prop :=
  ∀ s t : State, s.BoundaryInv → step s = .next t → t.BoundaryInv

/-- The boundary invariant holds after reset, for every block size. -/
def Obligations.BoundaryInvariantAtReset : Prop :=
  ∀ z : BlockSize, (State.resetOf z).BoundaryInv

/-- A step is refused only for a request changed within its transaction: with an inbox that holds no such request every
run goes on, and each step takes one event. Beyond the end of the inbox the run goes on by idle steps, which change
nothing: that part is the model's choice (log entry 6). -/
def Obligations.SafeInboxNeverStops : Prop :=
  ∀ (k : Nat) (s : State), SafeInbox s.inbox →
    (∃ (ports : Response s.m) (delivered : List (Response s.m)), Host.Core.run Sys2Proof.core k s =
      .next { s with ports := ports, inbox := s.inbox.drop k, delivered := delivered }) ∧
    (s.inbox.length ≤ k →
      Host.Core.run Sys2Proof.core k s = Host.Core.run Sys2Proof.core s.inbox.length s)

/-! ## Block size, positions, instances -/

/-- R4: N is a power of two ≥ 2, refused otherwise, fixed at elaboration, and the same for every operation. -/
def Obligations.BlockSizeIsFixedAtElaboration : Prop :=
  (∀ n, (∃ z, elaborate n = some z ∧ z.n = n) ↔ ∃ k, 1 ≤ k ∧ n = 2 ^ k) ∧
  (∀ n, elaborate n = none ↔ ¬ ∃ k, 1 ≤ k ∧ n = 2 ^ k) ∧
  ∀ s t : State, step s = .next t → t.size = s.size

/-- R81: no instance exists for another N, and the host's encode fails at once, whatever the text. That decode answers
the same error for such an N is the model's choice (log entry 14): R76 and R81 do not say it. -/
def Obligations.ConfigurationErrorFailsFast : Prop :=
  ∀ n, (¬ ∃ k, 1 ≤ k ∧ n = 2 ^ k) →
    elaborate n = none ∧ (∀ z : BlockSize, z.n ≠ n) ∧
    ∀ text blocks, encodeText n text = .error .configuration ∧ decodeText n blocks = .error .configuration

/-- R5, R7: the three position classes partition the indices; P has M members and D has K; the examples. -/
def Obligations.PositionClassesPartition : Prop :=
  (∀ (z : BlockSize) (i : Nat), i < z.n →
    (i = 0 ∧ i ∉ parityPositions z.m ∧ i ∉ dataPositions z.n) ∨
    (i ≠ 0 ∧ i ∈ parityPositions z.m ∧ i ∉ dataPositions z.n) ∨
    (i ≠ 0 ∧ i ∉ parityPositions z.m ∧ i ∈ dataPositions z.n)) ∧
  (∀ z : BlockSize, (∀ i, i ∈ parityPositions z.m ↔ ∃ k < z.m, i = 2 ^ k) ∧
    (∀ i, i ∈ dataPositions z.n ↔ 1 ≤ i ∧ i < z.n ∧ ∀ k, i ≠ 2 ^ k) ∧
    (parityPositions z.m).Nodup ∧ (parityPositions z.m).length = z.m ∧
    (dataPositions z.n).Nodup ∧ (dataPositions z.n).length = z.k) ∧
  parityPositions 4 = [1, 2, 4, 8] ∧ dataPositions 16 = [3, 5, 6, 7, 9, 10, 11, 12, 13, 14, 15] ∧
  ∀ z : BlockSize, z.k = z.n - z.m - 1 ∧ (z.m = 1 → z.k = 0) ∧ (z.m = 2 → z.k = 1) ∧ (z.m = 3 → z.k = 4) ∧
    (z.m = 4 → z.k = 11) ∧ (z.m = 5 → z.k = 26) ∧ (z.m = 6 → z.k = 57)

/-- R8: dpos lists the data positions in ascending order, all of them, and its first five values. -/
def Obligations.DataPositionsAscend : Prop :=
  ∀ z : BlockSize,
    (∀ j, (∃ i, dpos z.n j = some i) ↔ j < z.k) ∧
    (∀ i, (∃ j, dpos z.n j = some i) ↔ i < z.n ∧ DataIndex i) ∧
    (∀ j j' i i', j < j' → dpos z.n j = some i → dpos z.n j' = some i' → i < i') ∧
    (4 ≤ z.m → (List.range 5).map (dpos z.n) = [some 3, some 5, some 6, some 7, some 9])

/-- R6, R87: a platform has at least one instance, and any list of at least one is a platform; an instance's step
changes no other instance, depends on its own state alone, and two instances' steps give the same platform in either
order. -/
def Obligations.InstancesAreIndependent : Prop :=
  ((∀ p : Platform, 1 ≤ p.count) ∧
    ∀ l : List State, (∃ p, Platform.build l = some p ∧ p.instances = l) ↔ 1 ≤ l.length) ∧
  (∀ (p : Platform) (k : Nat) (s t : State), p.instances[k]? = some s → step s = .next t →
    ∃ q : Platform, p.stepAt k = some (.next q) ∧ q.instances[k]? = some t ∧
      ∀ j, j ≠ k → q.instances[j]? = p.instances[j]?) ∧
  ∀ (p : Platform) (k j : Nat) (s t s' t' : State), k ≠ j → p.instances[k]? = some s → step s = .next t →
    p.instances[j]? = some s' → step s' = .next t' →
    ∃ q q' r : Platform, p.stepAt k = some (.next q) ∧ p.stepAt j = some (.next q') ∧
      q.stepAt j = some (.next r) ∧ q'.stepAt k = some (.next r)

/-- Results that come back from the instances in any order are put back in block order by their tags. The tags
are the model's choice of how the host does so (log entry 18). -/
def Obligations.BlockOrderIsRestored : Prop :=
  ∀ (blocks : List Nat) (f : Nat → Nat) (results : List (Nat × Nat)),
    results.Perm ((tagBlocks blocks).map fun p => (p.1, f p.2)) →
    restoreOrder blocks.length results = blocks.map f

/-! ## Host-side framing -/

/-- R70: toBinary: 8 bits for each character, most significant first; codes above 255 are refused; the example. -/
def Obligations.TextBecomesBitsMsbFirst : Prop :=
  (∀ text : List Nat, (∀ c ∈ text, c ≤ 255) → ∃ bits, toBinary text = .ok bits ∧
    bits.length = 8 * text.length ∧
    ∀ k j, k < text.length → j < 8 → bits.getD (8 * k + j) false = (text.getD k 0).testBit (7 - j)) ∧
  (∀ text : List Nat, (∃ c ∈ text, 255 < c) → toBinary text = .error .characterOutOfRange) ∧
  toBinary [0x68] = .ok [false, true, true, false, true, false, false, false]

/-- R71: toAscii is the inverse of toBinary, fails with the format error exactly when the length is not a multiple
of 8, and gives the empty text for no bits. -/
def Obligations.AsciiInvertsBinary : Prop :=
  (∀ text bits, toBinary text = .ok bits → toAscii bits = .ok text) ∧
  (∀ text bits, toAscii bits = .ok text → toBinary text = .ok bits) ∧
  (∀ bits, toAscii bits = .error .format ↔ bits.length % 8 ≠ 0) ∧
  toAscii [] = .ok []

/-- R72, R73: chunk: ceil(L / K) blocks, bit kK + j at dpos(j) of block k, zero padding, reserved parity slots; no
block for empty input, and N = 2 refused on any other. -/
def Obligations.ChunkPlacesBitsAtDataPositions : Prop :=
  (∀ z : BlockSize, chunk z.m [] = .ok []) ∧
  (∀ bits : List Bool, bits ≠ [] → chunk 1 bits = .error .noDataSlot) ∧
  ∀ (z : BlockSize) (bits : List Bool), 1 ≤ z.k → bits ≠ [] → ∃ blocks : List (List Slot),
    chunk z.m bits = .ok blocks ∧ blocks.length = (bits.length + z.k - 1) / z.k ∧
    ∀ (k : Nat) (slots : List Slot), blocks[k]? = some slots → slots.length = z.n ∧
      (∀ i, i = 0 ∨ i ∈ parityPositions z.m → slots[i]? = some .reserved) ∧
      ∀ j i, dpos z.n j = some i → slots[i]? = some (.data (bits.getD (k * z.k + j) false))

/-- R74: join keeps the data bits in order, cut to the largest multiple of 8. -/
def Obligations.JoinKeepsDataBits : Prop :=
  ∀ (m : Nat) (blocks : List (Block m)),
    (∀ b ∈ blocks, ∀ j, (dataBits b)[j]? = (dpos (2 ^ m) j).map fun i => b.getLsbD i) ∧
    join blocks <+: blocks.flatMap dataBits ∧
    (join blocks).length % 8 = 0 ∧
    (blocks.flatMap dataBits).length < (join blocks).length + 8

/-- R75: encoding a text is one ENC transaction for each chunk, in order: a run of them delivers the message. -/
def Obligations.EncodeIsOneEncPerBlock : Prop :=
  ∀ (s : State) (text : List Nat) (asked message : List (Block s.m)),
    messageBlocks s.m text = .ok asked → encodeBlocks s.m text = .ok message →
    s.inbox = (asked.map fun b => HostEvent.request (packed 0 b) []) →
    ∃ (ports : Response s.m) (rs : List (Response s.m)),
      Host.Core.run Sys2Proof.core asked.length s =
        .next { s with ports := ports, inbox := [], delivered := s.delivered ++ rs } ∧
      rs.map Response.blkOut = message

/-- R76: decode is COR on each block, then join, then toAscii, and never meets the format error. -/
def Obligations.DecodeNeverMeetsFormatError : Prop :=
  ∀ (m : Nat) (blocks : List (Block m)),
    decodeBlocks blocks = toAscii (join (blocks.map corBlock)) ∧ ∃ text, decodeBlocks blocks = .ok text

/-- R78: the end-to-end result, with at most one flipped bit in each block on the way. -/
def Obligations.EndToEndResult : Prop :=
  (∀ (z : BlockSize) (text : List Nat), 1 ≤ z.k → (∀ c ∈ text, c ≤ 255) →
    ∃ message, encodeBlocks z.m text = .ok message ∧
      message.length = (8 * text.length + z.k - 1) / z.k ∧
      ∀ received, List.Forall₂ atMostOneFlip message received →
        decodeBlocks received =
          .ok (text ++ List.replicate (message.length * z.k / 8 - text.length) 0) ∧
        (decodeBlocks received = .ok text ↔ message.length * z.k - 8 * text.length < 8) ∧
        (z.n = 4 ∨ z.n = 8 → decodeBlocks received = .ok text)) ∧
  ∃ message : List (Block 4), encodeBlocks 4 [97, 98, 99] = .ok message ∧
    decodeBlocks message = .ok [97, 98, 99, 0]

/-- R79: join after ENC after chunk gives the input, right-padded with zeros to a multiple of K and cut to a multiple
of 8, and joining after ENC equals joining the chunked blocks. -/
def Obligations.JoinInvertsChunkUpToPadding : Prop :=
  ∀ (z : BlockSize) (bits : List Bool), 1 ≤ z.k → ∃ blocks pad, chunk z.m bits = .ok blocks ∧
    pad < z.k ∧ (bits.length + pad) % z.k = 0 ∧
    join (blocks.map fun s => encBlock (presentSlots z.m s)) =
      (bits ++ List.replicate pad false).take ((bits.length + pad) / 8 * 8) ∧
    join (blocks.map fun s => encBlock (presentSlots z.m s)) = join (blocks.map (presentSlots z.m))

/-! ## Assembler syntax -/

/-- R39, the quoted form: the printed line of every operation assembles to its request word. -/
def Obligations.PrintedLineAssembles : Prop :=
  ∀ (m : Nat) (i : Instr), i.wellFormed m = true → assemble m (printInstr m i) = .ok (encode m i)

/-- R39: a line assembles to w exactly when it is a mnemonic, a space, a block that is read to the end of the line,
and w is the packed word of the operation the mnemonic names, with that block's bus value as operand, which N bits
hold. HexLiteralAssembles and QuotedBlockAssembles say what each form of block is read as. -/
def Obligations.AssembledWordIsPacked : Prop :=
  ∀ (m : Nat) (src : List Char) (w : Req m), assemble m src = .ok w ↔
    ∃ (i : Instr) (rest : List Char), i.wellFormed m = true ∧ src.take 3 = mnemonicOf i ∧
      src[3]? = some ' ' ∧ parseBlock m (opcode i) (src.drop 4) = .ok (i.blk, rest) ∧
      endsLine rest = true ∧ w.toNat = (opcode i).toNat * 2 ^ 2 ^ m + i.blk

/-- R39, the hex form: a literal of any number of digits assembles, with or without a comment, to the packed word of
its value where N bits hold it, and is refused otherwise. That leading zeros do not make a literal too wide is the
model's choice (log entry 11). -/
def Obligations.HexLiteralAssembles : Prop :=
  ∀ (m : Nat) (i : Instr) (ds : List Nat) (tail : List Char), ds ≠ [] → (∀ d ∈ ds, d < 16) → LineEnd tail →
    (∀ b : Block m, b.toNat = hexValue ds →
      assemble m (mnemonicOf i ++ ' ' :: '0' :: 'x' :: (ds.map hexChar ++ tail)) =
        .ok (packed (opcode i).toNat b)) ∧
    (2 ^ 2 ^ m ≤ hexValue ds →
      assemble m (mnemonicOf i ++ ' ' :: '0' :: 'x' :: (ds.map hexChar ++ tail)) = .error .literalTooWide)

/-- R39, the quoted form: N characters assemble, with or without a comment, to the packed word of the block whose
index j is 1 where character j is 1, an r counting as 0; another number of characters is refused, and so is an r with
another operation than ENC or at a data position. Which reason a line with several faults gets is the model's choice
(log entry 11). -/
def Obligations.QuotedBlockAssembles : Prop :=
  ∀ (m : Nat) (i : Instr) (cs tail : List Char),
    (LineEnd tail → cs.length = 2 ^ m → (∀ j c, cs[j]? = some c → QuotedCharFits (opcode i) j c) →
      ∃ b : Block m, (∀ j < 2 ^ m, b.getLsbD j = decide (cs[j]? = some '1')) ∧
        assemble m (quotedLine i cs tail) = .ok (packed (opcode i).toNat b)) ∧
    (cs.length ≠ 2 ^ m → (∀ j c, cs[j]? = some c → QuotedCharFits (opcode i) j c) →
      assemble m (quotedLine i cs tail) = .error .wrongLength) ∧
    ∀ before afterR, cs = before ++ 'r' :: afterR →
      (∀ j c, before[j]? = some c → QuotedCharFits (opcode i) j c) →
      (opcode i ≠ 0b00#2 ∨ DataIndex before.length) →
      assemble m (quotedLine i cs tail) = .error .misplacedReserved

/-! ## The host's chunk outside the block sizes -/

/-- chunk refuses N = 1, whatever the input. R72 requires a power of two ≥ 2 and does not say what chunk answers
otherwise: the model's choice (log entry 14). -/
def Obligations.ChunkRefusesBlockSizeOne : Prop :=
  ∀ bits : List Bool, chunk 0 bits = .error .configuration

/-! ## Arithmetic of the status functions -/

/-- R55: the XOR of any indices below N is below N, and so is SYN, which its port word does not truncate; PAR is a
single bit; LOC is −1 or lies in 0, …, N−1. The operand is the request's own bits with no extension, and COR's output
has no carry from one bit to another: bit i is the operand's bit i, inverted where LOC is i. -/
def Obligations.StatusArithmeticStaysInRange : Prop :=
  (∀ (m : Nat) (is : List Nat), (∀ i ∈ is, i < 2 ^ m) → xorAll is < 2 ^ m) ∧
  (∀ (m : Nat) (b : Block m), syndrome b < 2 ^ m ∧ (synWord b).toNat = syndrome b ∧
    (overallParity b = 0 ∨ overallParity b = 1) ∧
    -1 ≤ locate b ∧ locate b ≤ 2 ^ m - 1 ∧ (locate b < 0 → locate b = -1)) ∧
  ∀ (s : State) (b : Block s.m), (operand? s.m b.toNat = some b) ∧
    ∃ r : Response s.m, exec (.cor b.toNat) s = .next (after s r) ∧
      ∀ i < 2 ^ s.m, r.blkOut.getLsbD i = (b.getLsbD i).xor (decide (locate b = (i : Int)))
end

