-- ==== Sys2Proof/Laws/Decode.lean ====
section
/-! SUPPORT. The fields of a request word and of an encoded operation (spec/30_encoding.md R30, R32). -/

namespace Sys2Proof

theorem wellFormed_iff (m : Nat) (i : Instr) : i.wellFormed m = true ↔ i.blk < 2 ^ 2 ^ m :=
  decide_eq_true_iff

theorem blk_instrOfOp (op : OpWord) (b : Nat) : (instrOfOp op b).blk = b := by
  unfold instrOfOp
  split
  · rfl
  · split
    · rfl
    · split <;> rfl

theorem opcode_instrOfOp (op : OpWord) (b : Nat) : opcode (instrOfOp op b) = op := by
  revert op
  intro op
  unfold instrOfOp
  split
  · next h => exact h.symm
  · next h0 =>
    split
    · next h => exact h.symm
    · next h1 =>
      split
      · next h => exact h.symm
      · next h2 =>
        have h3 : ∀ o : OpWord, o ≠ 0b00#2 → o ≠ 0b01#2 → o ≠ 0b10#2 → 0b11#2 = o := by decide
        exact h3 op h0 h1 h2

theorem instrOfOp_opcode (i : Instr) : instrOfOp (opcode i) i.blk = i := by
  cases i <;> rfl

/-- The packed value of an encoded operation (30_encoding.md R30). -/
theorem toNat_encode (m : Nat) (i : Instr) :
    (encode m i).toNat = (opcode i).toNat * 2 ^ 2 ^ m + i.blk % 2 ^ 2 ^ m := by
  rw [encode, BitVec.toNat_cast, BitVec.toNat_append, BitVec.toNat_ofNat, Nat.shiftLeft_eq,
    Nat.mul_comm, ← Nat.two_pow_add_eq_or_of_lt (Nat.mod_lt _ (Nat.two_pow_pos _))]

theorem toNat_opField {m : Nat} (w : Req m) : (opField w).toNat = w.toNat / 2 ^ 2 ^ m := by
  have h := w.isLt
  rw [Nat.pow_add] at h
  rw [opField, BitVec.extractLsb'_toNat, Nat.shiftRight_eq_div_pow,
    Nat.mod_eq_of_lt (Nat.div_lt_of_lt_mul h)]

theorem toNat_blkField {m : Nat} (w : Req m) : (blkField w).toNat = w.toNat % 2 ^ 2 ^ m := by
  rw [blkField, BitVec.extractLsb'_toNat, Nat.shiftRight_zero]

theorem opField_encode (m : Nat) (i : Instr) : opField (encode m i) = opcode i := by
  apply BitVec.eq_of_toNat_eq
  rw [toNat_opField, toNat_encode, Nat.mul_comm,
    Nat.mul_add_div (Nat.two_pow_pos _), Nat.div_eq_of_lt (Nat.mod_lt _ (Nat.two_pow_pos _)), Nat.add_zero]

theorem toNat_blkField_encode (m : Nat) (i : Instr) :
    (blkField (encode m i)).toNat = i.blk % 2 ^ 2 ^ m := by
  rw [toNat_blkField, toNat_encode, Nat.mul_comm, Nat.mul_add_mod, Nat.mod_mod]

/-- A request word is its two fields, packed (30_encoding.md R30). -/
theorem toNat_eq_fields {m : Nat} (w : Req m) :
    w.toNat = (opField w).toNat * 2 ^ 2 ^ m + (blkField w).toNat := by
  rw [toNat_opField, toNat_blkField, Nat.mul_comm, Nat.div_add_mod]

theorem opcode_decodeReq {m : Nat} (w : Req m) : opcode (decodeReq w) = opField w :=
  opcode_instrOfOp _ _

theorem blk_decodeReq {m : Nat} (w : Req m) : (decodeReq w).blk = (blkField w).toNat :=
  blk_instrOfOp _ _

theorem blk_decodeReq_lt {m : Nat} (w : Req m) : (decodeReq w).blk < 2 ^ 2 ^ m := by
  rw [blk_decodeReq]
  exact (blkField w).isLt

end Sys2Proof
end

