-- ==== Sys2Proof/Laws/Bits.lean ====
section
/-! SUPPORT. The XOR reductions and counts of Machine/Operands.lean, and single bits of a block. -/

namespace Sys2Proof.Machine

theorem xorBits_congr {n : Nat} {f g : Nat → Bool} (h : ∀ i < n, f i = g i) :
    xorBits n f = xorBits n g := by
  induction n with
  | zero => rfl
  | succ n ih =>
    rw [xorBits, xorBits, ih fun i hi => h i (by omega), h n (by omega)]

theorem xorIndices_congr {n : Nat} {f g : Nat → Bool} (h : ∀ i < n, f i = g i) :
    xorIndices n f = xorIndices n g := by
  induction n with
  | zero => rfl
  | succ n ih =>
    rw [xorIndices, xorIndices, ih fun i hi => h i (by omega), h n (by omega)]

theorem xorBits_false (n : Nat) : xorBits n (fun _ => false) = false := by
  induction n with
  | zero => rfl
  | succ n ih => rw [xorBits, ih]; rfl

theorem xorBits_xor (n : Nat) (f g : Nat → Bool) :
    xorBits n (fun i => (f i).xor (g i)) = (xorBits n f).xor (xorBits n g) := by
  induction n with
  | zero => rfl
  | succ n ih =>
    simp only [xorBits, ih]
    cases xorBits n f <;> cases xorBits n g <;> cases f n <;> cases g n <;> rfl

theorem xorBits_single (n j : Nat) (v : Bool) :
    xorBits n (fun i => i == j && v) = (decide (j < n) && v) := by
  induction n with
  | zero => simp [xorBits]
  | succ n ih =>
    rw [xorBits, ih]
    rcases lt_trichotomy j n with h | h | h
    · have h1 : (n == j) = false := beq_false_of_ne (by omega)
      simp [h, h1, Nat.lt_succ_of_lt h]
    · subst h; simp
    · have h1 : (n == j) = false := beq_false_of_ne (by omega)
      have h2 : ¬ j < n := by omega
      have h3 : ¬ j < n + 1 := by omega
      simp [h1, h2, h3]

/-- Take the term at `j` out of an XOR reduction. -/
theorem xorBits_split {n j : Nat} (hj : j < n) (f : Nat → Bool) :
    xorBits n f = (xorBits n fun i => i != j && f i).xor (f j) := by
  have h : ∀ i < n, f i = (i != j && f i).xor (i == j && f j) := by
    intro i _
    by_cases hij : i = j
    · subst hij; simp
    · simp [bne, beq_false_of_ne hij]
  rw [xorBits_congr h, xorBits_xor, xorBits_single, decide_eq_true hj, Bool.true_and]

theorem xorIndices_xor (n : Nat) (f g : Nat → Bool) :
    xorIndices n (fun i => (f i).xor (g i)) = xorIndices n f ^^^ xorIndices n g := by
  induction n with
  | zero => simp [xorIndices]
  | succ n ih =>
    rw [xorIndices, xorIndices, xorIndices, ih]
    have h : (if (f n).xor (g n) then n else 0) = (if f n then n else 0) ^^^ (if g n then n else 0) := by
      cases f n <;> cases g n <;> simp
    rw [h]
    ac_rfl

theorem xorIndices_false (n : Nat) : xorIndices n (fun _ => false) = 0 := by
  induction n with
  | zero => rfl
  | succ n ih => simp [xorIndices, ih]

theorem xorIndices_single (n j : Nat) :
    xorIndices n (fun i => i == j) = if j < n then j else 0 := by
  induction n with
  | zero => rfl
  | succ n ih =>
    rw [xorIndices, ih]
    rcases lt_trichotomy j n with h | h | h
    · have : ¬ n = j := by omega
      simp [h, this, Nat.lt_succ_of_lt h]
    · subst h; simp
    · have h1 : ¬ n = j := by omega
      have h2 : ¬ j < n := by omega
      have h3 : ¬ j < n + 1 := by omega
      simp [h1, h2, h3]

/-- Bit k of an XOR of indices is the XOR of the bits at indices whose bit k is set. -/
theorem testBit_xorIndices (n k : Nat) (f : Nat → Bool) :
    (xorIndices n f).testBit k = xorBits n fun i => i.testBit k && f i := by
  induction n with
  | zero => simp [xorIndices, xorBits]
  | succ n ih =>
    rw [xorIndices, xorBits, Nat.testBit_xor, ih]
    cases f n <;> simp

theorem xorIndices_lt {n m : Nat} (hn : n ≤ 2 ^ m) (f : Nat → Bool) : xorIndices n f < 2 ^ m := by
  induction n with
  | zero => exact Nat.two_pow_pos m
  | succ n ih =>
    rw [xorIndices]
    refine Nat.xor_lt_two_pow (ih (by omega)) ?_
    split
    · omega
    · exact Nat.two_pow_pos m

theorem xorIndices_eq_foldl (n : Nat) (f : Nat → Bool) :
    xorIndices n f = ((List.range n).filter f).foldl (· ^^^ ·) 0 := by
  induction n with
  | zero => rfl
  | succ n ih =>
    rw [xorIndices, ih, List.range_succ, List.filter_append, List.foldl_append]
    cases h : f n <;> simp [h]

theorem countBits_eq_card (n : Nat) (f : Nat → Bool) :
    countBits n f = ((Finset.range n).filter fun i => f i = true).card := by
  induction n with
  | zero => rfl
  | succ n ih =>
    rw [countBits, ih, Finset.range_add_one, Finset.filter_insert]
    cases h : f n <;> simp

theorem xorBits_eq_countBits (n : Nat) (f : Nat → Bool) :
    xorBits n f = decide (countBits n f % 2 = 1) := by
  induction n with
  | zero => rfl
  | succ n ih =>
    rw [xorBits, countBits, ih]
    have : countBits n f % 2 = 0 ∨ countBits n f % 2 = 1 := by omega
    cases hf : f n <;> rcases this with h | h <;> simp [h, Nat.add_mod]

/-- An XOR reduction is 1 exactly when an odd number of its bits are. -/
theorem xorBits_eq_card (n : Nat) (f : Nat → Bool) :
    xorBits n f = decide (((Finset.range n).filter fun i => f i = true).card % 2 = 1) := by
  rw [xorBits_eq_countBits, countBits_eq_card]

theorem xorBits_eq_foldl (n : Nat) (f : Nat → Bool) :
    xorBits n f = ((List.range n).map f).foldl Bool.xor false := by
  induction n with
  | zero => rfl
  | succ n ih =>
    rw [xorBits, ih, List.range_succ, List.map_append, List.foldl_append]
    rfl

/-- XOR of all the indices below a multiple of 4 is 0. -/
theorem xorIndices_all (q : Nat) : xorIndices (4 * q) (fun _ => true) = 0 := by
  induction q with
  | zero => rfl
  | succ q ih =>
    have h : 4 * (q + 1) = 4 * q + 1 + 1 + 1 + 1 := by omega
    rw [h, xorIndices, xorIndices, xorIndices, xorIndices, ih]
    have h0 : (4 * q) = 2 ^ 2 * q + 0 := by omega
    have h1 : (4 * q + 1) = 2 ^ 2 * q + 1 := by omega
    have h2 : (4 * q + 1 + 1) = 2 ^ 2 * q + 2 := by omega
    have h3 : (4 * q + 1 + 1 + 1) = 2 ^ 2 * q + 3 := by omega
    apply Nat.eq_of_testBit_eq
    intro k
    simp only [if_true, Nat.testBit_xor, Nat.zero_testBit, Bool.false_xor]
    rw [h1, h2, h3, h0]
    rw [Nat.testBit_two_pow_mul_add _ (by decide), Nat.testBit_two_pow_mul_add _ (by decide),
      Nat.testBit_two_pow_mul_add _ (by decide), Nat.testBit_two_pow_mul_add _ (by decide)]
    split
    · next hk => interval_cases k <;> rfl
    · simp

/-! Single bits of a block. -/

theorem getLsbD_unitBlock {m i j : Nat} (hj : j < 2 ^ m) :
    (unitBlock i : Block m).getLsbD j = decide (i = j) := by
  rw [unitBlock, BitVec.getLsbD_ofNat, Nat.testBit_two_pow, decide_eq_true hj, Bool.true_and]

theorem getLsbD_flipBit {m l j : Nat} (b : Block m) (hj : j < 2 ^ m) :
    (flipBit b l).getLsbD j = (b.getLsbD j).xor (decide (l = j)) := by
  rw [flipBit, BitVec.getLsbD_xor, getLsbD_unitBlock hj]

theorem getLsbD_setIndex {m i j : Nat} (b : Block m) (v : Bool) (hj : j < 2 ^ m) :
    (setIndex b i v).getLsbD j = if i = j then v else b.getLsbD j := by
  unfold setIndex
  split
  · next h => split
              · next hij => rw [← hij, h]
              · rfl
  · next h =>
    rw [BitVec.getLsbD_xor, getLsbD_unitBlock hj]
    by_cases hij : i = j
    · subst hij
      cases hb : b.getLsbD i <;> cases v <;> simp_all
    · simp [hij]

/-- Two blocks that agree at every index are equal. -/
theorem block_ext {m : Nat} {a b : Block m} (h : ∀ i < 2 ^ m, a.getLsbD i = b.getLsbD i) : a = b :=
  BitVec.eq_of_getLsbD_eq fun i hi => h i hi

theorem flipBit_flipBit {m l : Nat} (b : Block m) : flipBit (flipBit b l) l = b := by
  rw [flipBit, flipBit, BitVec.xor_assoc, BitVec.xor_self, BitVec.xor_zero]

end Sys2Proof.Machine
end

