-- ==== Sys2Proof/Laws/Positions.lean ====
section
/-! SUPPORT. The position classes of a block (spec/00_scope.md R5, R7, R8) and elaboration (R4). -/

namespace Sys2Proof.Machine

theorem isPow2_iff (i : Nat) : isPow2 i = true ↔ ∃ k, i = 2 ^ k := by
  simp only [isPow2, beq_iff_eq]
  constructor
  · exact fun h => ⟨_, h⟩
  · rintro ⟨k, rfl⟩
    rw [Nat.log2_two_pow]

theorem isPow2_two_pow (k : Nat) : isPow2 (2 ^ k) = true := (isPow2_iff _).2 ⟨k, rfl⟩

theorem isParityPosition_iff (i : Nat) : isParityPosition i = true ↔ i = 0 ∨ ∃ k, i = 2 ^ k := by
  rw [isParityPosition, Bool.or_eq_true, beq_iff_eq, isPow2_iff]

theorem isParityPosition_eq_false (i : Nat) :
    isParityPosition i = false ↔ i ≠ 0 ∧ ∀ k, i ≠ 2 ^ k := by
  rw [← Bool.not_eq_true, isParityPosition_iff]
  push Not
  rfl

theorem land_two_pow_ne_zero (i k : Nat) : ((i &&& 2 ^ k) != 0) = i.testBit k := by
  rw [Nat.and_two_pow]
  cases i.testBit k <;> simp

theorem two_pow_lt_iff (k m : Nat) : 2 ^ k < 2 ^ m ↔ k < m :=
  Nat.pow_lt_pow_iff_right (by decide)

theorem mem_parityPositions (m i : Nat) : i ∈ parityPositions m ↔ ∃ k, k < m ∧ i = 2 ^ k := by
  simp only [parityPositions, List.mem_map, List.mem_range]
  constructor
  · rintro ⟨k, hk, rfl⟩; exact ⟨k, hk, rfl⟩
  · rintro ⟨k, hk, rfl⟩; exact ⟨k, hk, rfl⟩

theorem mem_dataPositions (n i : Nat) :
    i ∈ dataPositions n ↔ i < n ∧ isParityPosition i = false := by
  simp [dataPositions]

/-- The parity positions of a block are 0 and the M individual ones. -/
theorem filter_parity_eq (m : Nat) :
    (Finset.range (2 ^ m)).filter (fun i => isParityPosition i = true) =
      insert 0 ((Finset.range m).image (2 ^ ·)) := by
  ext i
  simp only [Finset.mem_filter, Finset.mem_range, Finset.mem_insert, Finset.mem_image,
    isParityPosition_iff]
  constructor
  · rintro ⟨hi, rfl | ⟨k, rfl⟩⟩
    · exact .inl rfl
    · exact .inr ⟨k, (two_pow_lt_iff k m).1 hi, rfl⟩
  · rintro (rfl | ⟨k, hk, rfl⟩)
    · exact ⟨Nat.two_pow_pos m, .inl rfl⟩
    · exact ⟨(two_pow_lt_iff k m).2 hk, .inr ⟨k, rfl⟩⟩

theorem card_parity (m : Nat) :
    ((Finset.range (2 ^ m)).filter fun i => isParityPosition i = true).card = m + 1 := by
  rw [filter_parity_eq, Finset.card_insert_of_notMem, Finset.card_image_of_injective,
    Finset.card_range]
  · exact Nat.pow_right_injective (le_refl 2)
  · simp

theorem length_filter_range (n : Nat) (p : Nat → Bool) :
    ((List.range n).filter p).length = ((Finset.range n).filter fun i => p i = true).card := by
  induction n with
  | zero => rfl
  | succ n ih =>
    rw [List.range_succ, List.filter_append, List.length_append, ih, Finset.range_add_one,
      Finset.filter_insert]
    cases h : p n <;> simp [h]

/-- There are K = N − M − 1 data positions (00_scope.md R5, R7). -/
theorem length_dataPositions (m : Nat) : (dataPositions (2 ^ m)).length = 2 ^ m - m - 1 := by
  have h := Finset.card_filter_add_card_filter_not (s := Finset.range (2 ^ m))
    (fun i => isParityPosition i = true)
  rw [card_parity, Finset.card_range] at h
  rw [dataPositions, length_filter_range]
  have e : ((Finset.range (2 ^ m)).filter fun i => (!isParityPosition i) = true) =
      (Finset.range (2 ^ m)).filter fun i => ¬ isParityPosition i = true := by
    apply Finset.filter_congr
    intro i _
    simp
  rw [e]
  omega

theorem dataPositions_pairwise (n : Nat) : (dataPositions n).Pairwise (· < ·) :=
  List.Pairwise.filter _ List.pairwise_lt_range

/-- Half of the indices of a block have bit k set (40_encoder.md R46). -/
theorem card_testBit {m k : Nat} (hk : k < m) :
    ((Finset.range (2 ^ m)).filter fun i => i.testBit k = true).card = 2 ^ m / 2 := by
  have hsum := Finset.card_filter_add_card_filter_not (s := Finset.range (2 ^ m))
    (fun i => i.testBit k = true)
  have hp := (two_pow_lt_iff k m).2 hk
  have hflip : ((Finset.range (2 ^ m)).filter fun i => i.testBit k = true).card =
      ((Finset.range (2 ^ m)).filter fun i => ¬ i.testBit k = true).card := by
    refine Finset.card_bij' (fun i _ => i ^^^ 2 ^ k) (fun i _ => i ^^^ 2 ^ k) ?_ ?_ ?_ ?_
    · intro i hi
      simp only [Finset.mem_filter, Finset.mem_range] at hi ⊢
      exact ⟨Nat.xor_lt_two_pow hi.1 hp, by simp [hi.2]⟩
    · intro i hi
      simp only [Finset.mem_filter, Finset.mem_range] at hi ⊢
      exact ⟨Nat.xor_lt_two_pow hi.1 hp, by simp [hi.2]⟩
    · exact fun i _ => Nat.xor_xor_cancel_right i _
    · exact fun i _ => Nat.xor_xor_cancel_right i _
  rw [Finset.card_range] at hsum
  omega

/-- Elaboration answers an instance exactly for a power of two ≥ 2, and its N is the one asked for. -/
theorem elaborate_eq_some (n : Nat) (z : BlockSize) : elaborate n = some z ↔ z.n = n := by
  unfold elaborate
  constructor
  · intro h
    split at h
    · next hn =>
      cases h
      have := hn.1
      simp only [isPow2, beq_iff_eq] at this
      exact this.symm
    · cases h
  · intro h
    have hl : n.log2 = z.m := by rw [← h, BlockSize.n, Nat.log2_two_pow]
    have hp : isPow2 n = true := by rw [← h]; exact isPow2_two_pow _
    rw [dif_pos ⟨hp, hl ▸ z.pos⟩]
    cases z
    simp only [Option.some.injEq, BlockSize.mk.injEq]
    exact hl

theorem elaborate_eq_none (n : Nat) : elaborate n = none ↔ ¬ ∃ m, 1 ≤ m ∧ n = 2 ^ m := by
  constructor
  · rintro h ⟨m, hm, rfl⟩
    have := (elaborate_eq_some (2 ^ m) ⟨m, hm⟩).2 rfl
    rw [h] at this
    cases this
  · intro h
    cases he : elaborate n with
    | none => rfl
    | some z => exact absurd ⟨z.m, z.pos, ((elaborate_eq_some n z).1 he).symm⟩ h

end Sys2Proof.Machine
end

