-- ==== Sys2Proof/Laws/Codec.lean ====
section
/-! SUPPORT. The functions ENC, SYN, PAR, LOC and COR on blocks of every size (spec/40_encoder.md,
41_syndrome_locator.md, 42_corrector.md): what each bit of a result is, and how they act on sums. -/

namespace Sys2Proof.Machine

variable {m : Nat}

/-! ## ENC -/

theorem parBit_eq (b : Block m) (k : Nat) :
    parBit b (2 ^ k) = xorBits (2 ^ m) fun i => i != 2 ^ k && (i.testBit k && b.getLsbD i) := by
  unfold parBit
  refine xorBits_congr fun i _ => ?_
  rw [land_two_pow_ne_zero, Bool.and_assoc]

/-- PARBIT reads data positions only (40_encoder.md R42). -/
theorem parBit_congr {a b : Block m} (k : Nat)
    (h : ∀ i < 2 ^ m, isParityPosition i = false → a.getLsbD i = b.getLsbD i) :
    parBit a (2 ^ k) = parBit b (2 ^ k) := by
  rw [parBit_eq, parBit_eq]
  refine xorBits_congr fun i hi => ?_
  cases hp : isParityPosition i with
  | false => rw [h i hi hp]
  | true =>
    rcases (isParityPosition_iff i).1 hp with rfl | ⟨l, rfl⟩
    · simp
    · by_cases hl : l = k
      · subst hl; simp
      · simp [hl]

theorem placeParities_pow (b : Block m) {j k : Nat} (hk : k < j) (hm : k < m) :
    (placeParities b j).getLsbD (2 ^ k) = parBit b (2 ^ k) := by
  induction j with
  | zero => omega
  | succ j ih =>
    rw [placeParities, getLsbD_setIndex _ _ ((two_pow_lt_iff k m).2 hm)]
    split
    · next h => rw [Nat.pow_right_injective (le_refl 2) h]
    · next h =>
      refine ih ?_
      rcases Nat.lt_succ_iff_lt_or_eq.1 hk with h' | h'
      · exact h'
      · exact absurd (h' ▸ rfl) h

theorem placeParities_other (b : Block m) {i : Nat} (hi : i < 2 ^ m) (h : ∀ k, i ≠ 2 ^ k) (j : Nat) :
    (placeParities b j).getLsbD i = b.getLsbD i := by
  induction j with
  | zero => rfl
  | succ j ih => rw [placeParities, getLsbD_setIndex _ _ hi, if_neg (h j).symm, ih]

/-- Filling the parity positions `ps` of c one by one, each from the block as filled so far, gives PARBIT of the
data bits at each of them, in whatever order (40_encoder.md R42). -/
theorem getLsbD_fillParities (b : Block m) (ps : List Nat) (hp : ∀ p ∈ ps, ∃ k < m, p = 2 ^ k)
    (c : Block m) (hc : ∀ i < 2 ^ m, isParityPosition i = false → c.getLsbD i = b.getLsbD i) :
    ∀ i < 2 ^ m, (ps.foldl (fun c p => setIndex c p (parBit c p)) c).getLsbD i =
      if i ∈ ps then parBit b i else c.getLsbD i := by
  induction ps generalizing c with
  | nil => intro i _; simp
  | cons p ps ih =>
    intro i hi
    obtain ⟨k, hk, rfl⟩ := hp p (by simp)
    have hdata : ∀ j < 2 ^ m, isParityPosition j = false →
        (setIndex c (2 ^ k) (parBit c (2 ^ k))).getLsbD j = b.getLsbD j := by
      intro j hj hq
      rw [getLsbD_setIndex _ _ hj, if_neg, hc j hj hq]
      rintro rfl
      exact ((isParityPosition_eq_false _).1 hq).2 k rfl
    rw [List.foldl_cons, ih (fun q hq => hp q (by simp [hq])) _ hdata i hi]
    by_cases h1 : i ∈ ps
    · simp [h1]
    · rw [if_neg h1, getLsbD_setIndex _ _ hi]
      by_cases h2 : 2 ^ k = i
      · subst h2
        simp [parBit_congr k hc]
      · have h3 : ¬ i = 2 ^ k := fun h => h2 h.symm
        simp [h1, h2, h3]

theorem encBlock_nonzero (b : Block m) {i : Nat} (hi : i < 2 ^ m) (h0 : i ≠ 0) :
    (encBlock b).getLsbD i = (placeParities b m).getLsbD i := by
  rw [encBlock, getLsbD_setIndex _ _ hi, if_neg (Ne.symm h0)]

/-- ENC copies the data positions (40_encoder.md R43). -/
theorem encBlock_data (b : Block m) {i : Nat} (hi : i < 2 ^ m) (h : isParityPosition i = false) :
    (encBlock b).getLsbD i = b.getLsbD i := by
  obtain ⟨h0, hk⟩ := (isParityPosition_eq_false i).1 h
  rw [encBlock_nonzero b hi h0, placeParities_other b hi hk]

/-- ENC puts PARBIT at each individual parity position (40_encoder.md R41). -/
theorem encBlock_pow (b : Block m) {k : Nat} (hk : k < m) :
    (encBlock b).getLsbD (2 ^ k) = parBit b (2 ^ k) := by
  rw [encBlock_nonzero b ((two_pow_lt_iff k m).2 hk) (Nat.two_pow_pos k).ne', placeParities_pow b hk hk]

/-- ENC puts the parity of the rest at index 0 (40_encoder.md R41). -/
theorem encBlock_zero (b : Block m) :
    (encBlock b).getLsbD 0 = xorBits (2 ^ m) fun i => i != 0 && (encBlock b).getLsbD i := by
  rw [encBlock, getLsbD_setIndex _ _ (Nat.two_pow_pos m), if_pos rfl, restParity]
  refine xorBits_congr fun i hi => ?_
  by_cases h0 : i = 0
  · subst h0; rfl
  · rw [getLsbD_setIndex _ _ hi, if_neg (Ne.symm h0)]

/-- A block is ENC(b) as soon as it has b's data bits and its own parity bits are right. -/
theorem eq_encBlock_of_bits {b c : Block m}
    (hd : ∀ i < 2 ^ m, isParityPosition i = false → c.getLsbD i = b.getLsbD i)
    (hp : ∀ k < m, c.getLsbD (2 ^ k) = parBit b (2 ^ k))
    (h0 : c.getLsbD 0 = xorBits (2 ^ m) fun i => i != 0 && c.getLsbD i) : c = encBlock b := by
  have hne : ∀ i < 2 ^ m, i ≠ 0 → c.getLsbD i = (encBlock b).getLsbD i := by
    intro i hi hi0
    cases hq : isParityPosition i with
    | false => rw [hd i hi hq, encBlock_data b hi hq]
    | true =>
      rcases (isParityPosition_iff i).1 hq with h | ⟨k, rfl⟩
      · exact absurd h hi0
      · have hk := (two_pow_lt_iff k m).1 hi
        rw [hp k hk, encBlock_pow b hk]
  refine block_ext fun i hi => ?_
  by_cases hi0 : i = 0
  · subst hi0
    rw [h0, encBlock_zero]
    refine xorBits_congr fun j hj => ?_
    by_cases hj0 : j = 0
    · subst hj0; rfl
    · rw [hne j hj hj0]
  · exact hne i hi hi0

/-- ENC depends on the data positions only (40_encoder.md R42). -/
theorem encBlock_congr {a b : Block m}
    (h : ∀ i < 2 ^ m, isParityPosition i = false → a.getLsbD i = b.getLsbD i) :
    encBlock a = encBlock b := by
  refine eq_encBlock_of_bits (fun i hi hq => ?_) (fun k hk => ?_) (encBlock_zero a)
  · rw [encBlock_data a hi hq, h i hi hq]
  · rw [encBlock_pow a hk, parBit_congr k h]

theorem parBit_encBlock (b : Block m) (k : Nat) : parBit (encBlock b) (2 ^ k) = parBit b (2 ^ k) :=
  parBit_congr k fun _ hi hq => encBlock_data b hi hq

/-- ENC of a codeword is the codeword (40_encoder.md R44 (d)). -/
theorem encBlock_encBlock (b : Block m) : encBlock (encBlock b) = encBlock b :=
  encBlock_congr fun _ hi hq => encBlock_data b hi hq

theorem isCodeword_iff (c : Block m) : isCodeword c = true ↔ ∃ b, c = encBlock b := by
  rw [isCodeword, beq_iff_eq]
  exact ⟨fun h => ⟨c, h.symm⟩, fun ⟨b, hb⟩ => by rw [hb, encBlock_encBlock]⟩

theorem parBit_xor (a b : Block m) (k : Nat) :
    parBit (a ^^^ b) (2 ^ k) = (parBit a (2 ^ k)).xor (parBit b (2 ^ k)) := by
  rw [parBit_eq, parBit_eq, parBit_eq, ← xorBits_xor]
  refine xorBits_congr fun i _ => ?_
  rw [BitVec.getLsbD_xor]
  cases i != 2 ^ k <;> cases i.testBit k <;> rfl

/-- ENC is linear (40_encoder.md R45). -/
theorem encBlock_xor (a b : Block m) : encBlock (a ^^^ b) = encBlock a ^^^ encBlock b := by
  refine (eq_encBlock_of_bits (fun i hi hq => ?_) (fun k hk => ?_) ?_).symm
  · rw [BitVec.getLsbD_xor, BitVec.getLsbD_xor, encBlock_data a hi hq, encBlock_data b hi hq]
  · rw [BitVec.getLsbD_xor, encBlock_pow a hk, encBlock_pow b hk, parBit_xor]
  · rw [BitVec.getLsbD_xor, encBlock_zero a, encBlock_zero b, ← xorBits_xor]
    refine xorBits_congr fun i _ => ?_
    rw [BitVec.getLsbD_xor]
    cases i != 0 <;> rfl

theorem encBlock_zero_block : encBlock (0 : Block m) = 0 := by
  have h := encBlock_xor (0 : Block m) 0
  rwa [BitVec.xor_self, BitVec.xor_self] at h

/-! ## SYN, PAR, LOC -/

theorem syndrome_lt (b : Block m) : syndrome b < 2 ^ m := xorIndices_lt (le_refl _) _

theorem testBit_syndrome (b : Block m) (k : Nat) :
    (syndrome b).testBit k = xorBits (2 ^ m) fun i => i.testBit k && b.getLsbD i :=
  testBit_xorIndices _ _ _

theorem syndrome_xor (a b : Block m) : syndrome (a ^^^ b) = syndrome a ^^^ syndrome b := by
  rw [syndrome, syndrome, syndrome, ← xorIndices_xor]
  exact xorIndices_congr fun i _ => BitVec.getLsbD_xor

theorem syndrome_unitBlock {j : Nat} (hj : j < 2 ^ m) : syndrome (unitBlock j : Block m) = j := by
  have h : ∀ i < 2 ^ m, (unitBlock j : Block m).getLsbD i = (i == j) := by
    intro i hi
    rw [getLsbD_unitBlock hi]
    by_cases hij : j = i
    · subst hij; simp
    · rw [decide_eq_false hij, beq_false_of_ne (Ne.symm hij)]
  rw [syndrome, xorIndices_congr h, xorIndices_single, if_pos hj]

theorem syndrome_flipBit (b : Block m) {j : Nat} (hj : j < 2 ^ m) :
    syndrome (flipBit b j) = syndrome b ^^^ j := by
  rw [flipBit, syndrome_xor, syndrome_unitBlock hj]

theorem syndrome_zero_block : syndrome (0 : Block m) = 0 := by
  have h := syndrome_xor (0 : Block m) 0
  rwa [BitVec.xor_self, Nat.xor_self] at h

/-- PAR is the XOR of all the bits (41_syndrome_locator.md R51). -/
theorem overallParity_eq (b : Block m) :
    overallParity b = (xorBits (2 ^ m) fun i => b.getLsbD i).toNat := by
  rw [overallParity, popcount, xorBits_eq_countBits]
  have : ∀ x : Nat, x % 2 = (decide (x % 2 = 1)).toNat := by
    intro x
    rcases Nat.mod_two_eq_zero_or_one x with h | h <;> simp [h]
  exact this _

theorem overallParity_lt (b : Block m) : overallParity b < 2 := Nat.mod_lt _ (by decide)

theorem overallParity_xor (a b : Block m) :
    overallParity (a ^^^ b) = (overallParity a + overallParity b) % 2 := by
  rw [overallParity_eq, overallParity_eq, overallParity_eq,
    xorBits_congr (g := fun i => (a.getLsbD i).xor (b.getLsbD i)) fun i _ => BitVec.getLsbD_xor,
    xorBits_xor]
  cases xorBits (2 ^ m) fun i => a.getLsbD i <;> cases xorBits (2 ^ m) fun i => b.getLsbD i <;> rfl

theorem overallParity_unitBlock {j : Nat} (hj : j < 2 ^ m) :
    overallParity (unitBlock j : Block m) = 1 := by
  have h : ∀ i < 2 ^ m, (unitBlock j : Block m).getLsbD i = (i == j && true) := by
    intro i hi
    rw [getLsbD_unitBlock hi, Bool.and_true]
    by_cases hij : j = i
    · subst hij; simp
    · rw [decide_eq_false hij, beq_false_of_ne (Ne.symm hij)]
  rw [overallParity_eq, xorBits_congr h, xorBits_single, decide_eq_true hj]
  rfl

theorem overallParity_flipBit (b : Block m) {j : Nat} (hj : j < 2 ^ m) :
    overallParity (flipBit b j) = (overallParity b + 1) % 2 := by
  rw [flipBit, overallParity_xor, overallParity_unitBlock hj]

/-- The syndrome of a codeword is 0 (40_encoder.md R44 (b)). -/
theorem syndrome_encBlock (b : Block m) : syndrome (encBlock b) = 0 := by
  apply Nat.eq_of_testBit_eq
  intro k
  rw [Nat.zero_testBit]
  by_cases hk : k < m
  · rw [testBit_syndrome, xorBits_split ((two_pow_lt_iff k m).2 hk), ← parBit_eq, parBit_encBlock,
      encBlock_pow b hk, Nat.testBit_two_pow_self, Bool.true_and, Bool.xor_self]
  · exact Nat.testBit_lt_two_pow (lt_of_lt_of_le (syndrome_lt _)
      (Nat.pow_le_pow_right (by decide) (Nat.not_lt.1 hk)))

/-- The total parity of a codeword is even (40_encoder.md R44 (a)). -/
theorem overallParity_encBlock (b : Block m) : overallParity (encBlock b) = 0 := by
  rw [overallParity_eq, xorBits_split (Nat.two_pow_pos m), ← encBlock_zero, Bool.xor_self]
  rfl

theorem locate_of_syndrome_ne {b : Block m} (h : syndrome b ≠ 0) : locate b = syndrome b := if_pos h

theorem locate_of_syndrome_eq {b : Block m} (h : syndrome b = 0) :
    locate b = if overallParity b = 1 then 0 else -1 := if_neg (not_not.2 h)

/-- LOC of a codeword is −1 (40_encoder.md R44 (c)). -/
theorem locate_encBlock (b : Block m) : locate (encBlock b) = -1 := by
  rw [locate_of_syndrome_eq (syndrome_encBlock b), overallParity_encBlock]
  rfl

/-- LOC names the one flipped index of a codeword (41_syndrome_locator.md R56). -/
theorem locate_flipBit_encBlock (b : Block m) {j : Nat} (hj : j < 2 ^ m) :
    locate (flipBit (encBlock b) j) = j := by
  have hs : syndrome (flipBit (encBlock b) j) = j := by
    rw [syndrome_flipBit _ hj, syndrome_encBlock, Nat.zero_xor]
  by_cases h0 : j = 0
  · subst h0
    rw [locate_of_syndrome_eq hs, overallParity_flipBit _ hj, overallParity_encBlock]
    rfl
  · rw [locate_of_syndrome_ne (by rw [hs]; exact h0), hs]

/-- The range of LOC (41_syndrome_locator.md R58). -/
theorem locate_range (b : Block m) : locate b = -1 ∨ ∃ l : Nat, l < 2 ^ m ∧ locate b = l := by
  by_cases h : syndrome b = 0
  · rw [locate_of_syndrome_eq h]
    split
    · exact .inr ⟨0, Nat.two_pow_pos m, rfl⟩
    · exact .inl rfl
  · exact .inr ⟨_, syndrome_lt b, locate_of_syndrome_ne h⟩

/-! ## All ones -/

theorem getLsbD_allOnes {i : Nat} (hi : i < 2 ^ m) : (BitVec.allOnes (2 ^ m)).getLsbD i = true := by
  rw [BitVec.getLsbD_allOnes, decide_eq_true hi]

/-- The all-ones block has syndrome 0 for every N ≥ 4 (41_syndrome_locator.md R53). -/
theorem syndrome_allOnes (hm : 2 ≤ m) : syndrome (BitVec.allOnes (2 ^ m)) = 0 := by
  have h : ∀ i < 2 ^ m, (BitVec.allOnes (2 ^ m)).getLsbD i = true := fun i hi => getLsbD_allOnes hi
  obtain ⟨d, rfl⟩ := Nat.exists_eq_add_of_le hm
  rw [syndrome, xorIndices_congr h, Nat.pow_add]
  exact xorIndices_all (2 ^ d)

theorem xorBits_true (n : Nat) : xorBits n (fun _ => true) = decide (n % 2 = 1) := by
  rw [xorBits_eq_card]
  simp

/-- Every parity bit over all-ones data is 1 for every N ≥ 4 (40_encoder.md R46). -/
theorem parBit_allOnes (hm : 2 ≤ m) {k : Nat} (hk : k < m) :
    parBit (BitVec.allOnes (2 ^ m)) (2 ^ k) = true := by
  have h := testBit_syndrome (BitVec.allOnes (2 ^ m) : Block m) k
  rw [syndrome_allOnes hm, Nat.zero_testBit, xorBits_split ((two_pow_lt_iff k m).2 hk), ← parBit_eq,
    Nat.testBit_two_pow_self, getLsbD_allOnes ((two_pow_lt_iff k m).2 hk)] at h
  revert h
  cases parBit (BitVec.allOnes (2 ^ m) : Block m) (2 ^ k) <;> decide

/-- The all-ones block is a codeword for every N ≥ 4 (40_encoder.md R46). -/
theorem encBlock_allOnes (hm : 2 ≤ m) :
    encBlock (BitVec.allOnes (2 ^ m)) = BitVec.allOnes (2 ^ m) := by
  refine (eq_encBlock_of_bits (fun _ _ _ => rfl) (fun k hk => ?_) ?_).symm
  · rw [getLsbD_allOnes ((two_pow_lt_iff k m).2 hk), parBit_allOnes hm hk]
  · have h : xorBits (2 ^ m) (fun i => (BitVec.allOnes (2 ^ m)).getLsbD i) = false := by
      rw [xorBits_congr (g := fun _ => true) fun i hi => getLsbD_allOnes hi, xorBits_true]
      obtain ⟨d, rfl⟩ := Nat.exists_eq_add_of_le hm
      rw [Nat.pow_add]
      simp [Nat.mul_mod]
    rw [xorBits_split (Nat.two_pow_pos m)] at h
    exact (bne_eq_false_iff_eq.1 h).symm

/-! ## COR -/

theorem corBlock_of_locate {b : Block m} {l : Nat} (h : locate b = l) : corBlock b = flipBit b l := by
  rw [corBlock, h, if_pos (Int.natCast_nonneg l), Int.toNat_natCast]

theorem corBlock_of_noError {b : Block m} (h : locate b = -1) : corBlock b = b := by
  rw [corBlock, h]
  rfl

/-- COR leaves a codeword alone (42_corrector.md R63). -/
theorem corBlock_encBlock (b : Block m) : corBlock (encBlock b) = encBlock b :=
  corBlock_of_noError (locate_encBlock b)

/-- COR restores a codeword with one flipped bit (42_corrector.md R62). -/
theorem corBlock_flipBit_encBlock (b : Block m) {j : Nat} (hj : j < 2 ^ m) :
    corBlock (flipBit (encBlock b) j) = encBlock b := by
  rw [corBlock_of_locate (locate_flipBit_encBlock b hj), flipBit_flipBit]

/-! ## Port words -/

theorem toNat_synWord (b : Block m) : (synWord b).toNat = syndrome b := by
  rw [synWord, BitVec.toNat_ofNat, Nat.mod_eq_of_lt (syndrome_lt b)]

theorem enc2c_neg_one (w : Nat) : enc2c w (-1) = BitVec.allOnes w := by
  rw [enc2c, show (-1 : Int) = -((1 : Nat) : Int) from rfl, BitVec.ofInt_neg, BitVec.ofInt_natCast]
  exact BitVec.neg_one_eq_allOnes

theorem enc2c_natCast (w l : Nat) : enc2c w (l : Int) = BitVec.ofNat w l := BitVec.ofInt_natCast w l

theorem locWord_of_noError {b : Block m} (h : locate b = -1) :
    locWord b = BitVec.allOnes (m + 1) := by
  rw [locWord, h, enc2c_neg_one]

theorem locWord_of_locate {b : Block m} {l : Nat} (h : locate b = l) :
    locWord b = BitVec.ofNat (m + 1) l := by
  rw [locWord, h, enc2c_natCast]

theorem lt_two_pow_succ {m l : Nat} (h : l < 2 ^ m) : l < 2 ^ (m + 1) := by
  rw [Nat.pow_succ]; omega

theorem toNat_locWord_of_locate {b : Block m} {l : Nat} (h : locate b = l) (hl : l < 2 ^ m) :
    (locWord b).toNat = l := by
  rw [locWord_of_locate h, BitVec.toNat_ofNat, Nat.mod_eq_of_lt (lt_two_pow_succ hl)]

theorem msb_locWord_of_locate {b : Block m} {l : Nat} (h : locate b = l) (hl : l < 2 ^ m) :
    (locWord b).msb = false := by
  rw [BitVec.msb_eq_decide, toNat_locWord_of_locate h hl]
  simpa using hl

theorem msb_allOnes_succ (m : Nat) : (BitVec.allOnes (m + 1)).msb = true := by
  simp [BitVec.msb_allOnes]

end Sys2Proof.Machine
end

