-- ==== Sys2Proof/Laws/Framing.lean ====
section
/-! SUPPORT. The host software of spec/45_host_framing.md: what each function answers. -/

namespace Sys2Proof.Machine

/-! ## toBinary and toAscii -/

theorem length_byteBits (c : Nat) : (byteBits c).length = 8 := rfl

theorem ofBitsMsb_byteBits (c : Nat) (h : c < 256) : ofBitsMsb (byteBits c) = c := by
  simp only [ofBitsMsb, byteBits, List.map_cons, List.map_nil, List.foldl_cons, List.foldl_nil,
    Nat.toNat_testBit]
  omega

theorem byteBits_ofBitsMsb : ∀ b7 b6 b5 b4 b3 b2 b1 b0 : Bool,
    byteBits (ofBitsMsb [b7, b6, b5, b4, b3, b2, b1, b0]) = [b7, b6, b5, b4, b3, b2, b1, b0] ∧
      ofBitsMsb [b7, b6, b5, b4, b3, b2, b1, b0] ≤ 255 := by decide

theorem toBinary_eq_ok (text : List Nat) (bits : List Bool) :
    toBinary text = .ok bits ↔ (∀ c ∈ text, c ≤ 255) ∧ text.flatMap byteBits = bits := by
  unfold toBinary
  constructor
  · intro h
    split at h
    · next ha =>
      cases h
      exact ⟨fun c hc => of_decide_eq_true (List.all_eq_true.1 ha c hc), rfl⟩
    · cases h
  · rintro ⟨h, rfl⟩
    rw [if_pos (List.all_eq_true.2 fun c hc => decide_eq_true (h c hc))]

theorem toBinary_eq_error (text : List Nat) :
    toBinary text = .error .characterOutOfRange ↔ ∃ c ∈ text, 255 < c := by
  unfold toBinary
  by_cases h : ∀ c ∈ text, c ≤ 255
  · rw [if_pos (List.all_eq_true.2 fun c hc => decide_eq_true (h c hc))]
    constructor
    · intro h'; cases h'
    · rintro ⟨c, hc, hlt⟩
      have := h c hc
      omega
  · rw [if_neg fun ha => h fun c hc => of_decide_eq_true (List.all_eq_true.1 ha c hc)]
    push Not at h
    exact ⟨fun _ => h, fun _ => rfl⟩

theorem length_flatMap_byteBits (text : List Nat) : (text.flatMap byteBits).length = 8 * text.length := by
  induction text with
  | nil => rfl
  | cons c text ih =>
    rw [List.flatMap_cons, List.length_append, ih, length_byteBits, List.length_cons]
    omega

theorem toAscii_byteBits_append (c : Nat) (h : c ≤ 255) (rest : List Bool) :
    toAscii (byteBits c ++ rest) =
      match toAscii rest with
      | .ok text => .ok (c :: text)
      | .error e => .error e := by
  have hc : ofBitsMsb [c.testBit 7, c.testBit 6, c.testBit 5, c.testBit 4, c.testBit 3, c.testBit 2,
      c.testBit 1, c.testBit 0] = c := ofBitsMsb_byteBits c (by omega)
  rw [byteBits]
  cases ht : toAscii rest <;>
    simp only [List.map_cons, List.map_nil, List.cons_append, List.nil_append, toAscii, hc, ht]

theorem toAscii_flatMap_append {text : List Nat} (h : ∀ c ∈ text, c ≤ 255) {rest : List Bool}
    {tail : List Nat} (hr : toAscii rest = .ok tail) :
    toAscii (text.flatMap byteBits ++ rest) = .ok (text ++ tail) := by
  induction text with
  | nil => exact hr
  | cons c text ih =>
    rw [List.flatMap_cons, List.append_assoc, toAscii_byteBits_append c (h c (by simp)),
      ih fun x hx => h x (by simp [hx])]
    rfl

theorem toAscii_zeros (q : Nat) : toAscii (List.replicate (8 * q) false) = .ok (List.replicate q 0) := by
  induction q with
  | zero => rfl
  | succ q ih =>
    have e : List.replicate (8 * (q + 1)) false = byteBits 0 ++ List.replicate (8 * q) false := by
      rw [Nat.mul_succ, Nat.add_comm, List.replicate_add]
      rfl
    rw [e, toAscii_byteBits_append 0 (by decide), ih]
    rfl

/-- What a text that toAscii answers must have come from. -/
theorem toAscii_eq_ok {bits : List Bool} {text : List Nat} (h : toAscii bits = .ok text) :
    (∀ c ∈ text, c ≤ 255) ∧ text.flatMap byteBits = bits := by
  induction bits using toAscii.induct generalizing text with
  | case1 =>
    cases h
    exact ⟨fun c hc => absurd hc List.not_mem_nil, rfl⟩
  | case2 b7 b6 b5 b4 b3 b2 b1 b0 rest t ht ih =>
    rw [toAscii, ht] at h
    cases h
    obtain ⟨hr, hb⟩ := ih ht
    obtain ⟨hv, hle⟩ := byteBits_ofBitsMsb b7 b6 b5 b4 b3 b2 b1 b0
    constructor
    · intro c hc
      rcases List.mem_cons.1 hc with rfl | hc
      · exact hle
      · exact hr c hc
    · rw [List.flatMap_cons, hv, hb]
      rfl
  | case3 b7 b6 b5 b4 b3 b2 b1 b0 rest e he ih =>
    rw [toAscii, he] at h
    cases h
  | case4 bits h1 h2 =>
    rw [toAscii] at h
    · cases h
    · exact h1
    · exact h2

/-- toAscii answers a text exactly when the length is a multiple of 8, and else the format error
(45_host_framing.md R71). -/
theorem toAscii_cases (bits : List Bool) :
    (bits.length % 8 = 0 ∧ ∃ text, toAscii bits = .ok text) ∨
      (bits.length % 8 ≠ 0 ∧ toAscii bits = .error .format) := by
  induction bits using toAscii.induct with
  | case1 => exact .inl ⟨rfl, _, rfl⟩
  | case2 b7 b6 b5 b4 b3 b2 b1 b0 rest t ht ih =>
    rcases ih with ⟨hl, -⟩ | ⟨-, he⟩
    · refine .inl ⟨?_, _, by rw [toAscii, ht]⟩
      simp only [List.length_cons]
      omega
    · rw [ht] at he; cases he
  | case3 b7 b6 b5 b4 b3 b2 b1 b0 rest e he ih =>
    rcases ih with ⟨-, t, ht⟩ | ⟨hl, hf⟩
    · rw [ht] at he; cases he
    · rw [he] at hf
      cases hf
      refine .inr ⟨?_, by rw [toAscii, he]⟩
      simp only [List.length_cons]
      omega
  | case4 bits h1 h2 =>
    refine .inr ⟨?_, ?_⟩
    · match bits, h1, h2 with
      | [], h1, _ => exact absurd rfl h1
      | [_], _, _ => simp
      | [_, _], _, _ => simp
      | [_, _, _], _, _ => simp
      | [_, _, _, _], _, _ => simp
      | [_, _, _, _, _], _, _ => simp
      | [_, _, _, _, _, _], _, _ => simp
      | [_, _, _, _, _, _, _], _, _ => simp
      | b7 :: b6 :: b5 :: b4 :: b3 :: b2 :: b1 :: b0 :: rest, _, h2 =>
        exact absurd rfl (h2 b7 b6 b5 b4 b3 b2 b1 b0 rest)
    · rw [toAscii]
      · exact h1
      · exact h2

/-! ## chunk -/

/-- The first d bits, padded with zeros. -/
def takePad : Nat → List Bool → List Bool
  | 0, _ => []
  | d + 1, bits => bits.headD false :: takePad d bits.tail

theorem takePad_eq (d : Nat) (bits : List Bool) :
    takePad d bits = bits.take d ++ List.replicate (d - bits.length) false := by
  induction d generalizing bits with
  | zero => simp [takePad]
  | succ d ih =>
    cases bits with
    | nil => simp [takePad, ih, List.replicate_succ]
    | cons b bits => simp [takePad, ih]

theorem length_takePad (d : Nat) (bits : List Bool) : (takePad d bits).length = d := by
  induction d generalizing bits with
  | zero => rfl
  | succ d ih => rw [takePad, List.length_cons, ih]

theorem length_fillSlots (is : List Nat) (bits : List Bool) :
    (fillSlots is bits).1.length = is.length := by
  induction is generalizing bits with
  | nil => rfl
  | cons i is ih =>
    rw [fillSlots]
    split
    · simp [ih]
    · simp [ih]

/-- The walk consumes one bit for each data position. -/
theorem fillSlots_rest (is : List Nat) (bits : List Bool) :
    (fillSlots is bits).2 = bits.drop (is.filter fun i => !isParityPosition i).length := by
  induction is generalizing bits with
  | nil => rfl
  | cons i is ih =>
    rw [fillSlots]
    split
    · next h => simp [ih, h]
    · next h =>
      have h' : (!isParityPosition i) = true := by simpa using h
      rw [List.filter_cons_of_pos (p := fun i => !isParityPosition i) h']
      simp [ih, List.drop_tail]

/-- The walk puts the bits at the data positions in order, padded with zeros. -/
theorem fillSlots_data (is : List Nat) (bits : List Bool) :
    ((is.zip (fillSlots is bits).1).filter fun p => !isParityPosition p.1).map (fun p => p.2.bit) =
      takePad (is.filter fun i => !isParityPosition i).length bits := by
  induction is generalizing bits with
  | nil => rfl
  | cons i is ih =>
    rw [fillSlots]
    split
    · next h => simp [ih, h]
    · next h =>
      have h' : (!isParityPosition i) = true := by simpa using h
      rw [List.filter_cons_of_pos (p := fun i => !isParityPosition i) h', List.zip_cons_cons, List.filter_cons_of_pos (by simpa using h),
        List.map_cons, ih]
      rfl

/-- The slot at a parity position is reserved. -/
theorem fillSlots_parity (is : List Nat) (bits : List Bool) :
    ∀ p ∈ is.zip (fillSlots is bits).1, isParityPosition p.1 = true → p.2 = .reserved := by
  induction is generalizing bits with
  | nil => intro p hp; cases hp
  | cons i is ih =>
    rw [fillSlots]
    split
    · rintro p hp hq
      rcases List.mem_cons.1 hp with rfl | hp
      · rfl
      · exact ih bits p hp hq
    · next h =>
      rintro p hp hq
      rcases List.mem_cons.1 hp with rfl | hp
      · exact absurd hq h
      · exact ih bits.tail p hp hq

/-- Each slot of a walk: reserved at a parity position, the j-th bit at the j-th data position. -/
theorem getElem?_fillSlots {is : List Nat} (hn : is.Nodup) (bits : List Bool) :
    (∀ k i : Nat, is[k]? = some i → isParityPosition i = true →
      (fillSlots is bits).1[k]? = some .reserved) ∧
    (∀ k i j : Nat, is[k]? = some i → (is.filter fun i => !isParityPosition i)[j]? = some i →
      (fillSlots is bits).1[k]? = some (.data (bits.getD j false))) := by
  induction is generalizing bits with
  | nil => simp
  | cons a is ih =>
    obtain ⟨ha, hn'⟩ := List.nodup_cons.1 hn
    have hout : ∀ j : Nat, (is.filter fun i => !isParityPosition i)[j]? ≠ some a := fun j h =>
      ha (List.mem_filter.1 (List.mem_of_getElem? h)).1
    rw [fillSlots]
    by_cases hp : isParityPosition a = true
    · rw [if_pos hp]
      constructor
      · intro k i h1 h2
        cases k with
        | zero => rfl
        | succ k => exact (ih hn' bits).1 k i h1 h2
      · intro k i j h1 h2
        rw [List.filter_cons_of_neg (by simp [hp])] at h2
        cases k with
        | zero =>
          cases Option.some.inj h1
          exact absurd h2 (hout j)
        | succ k => exact (ih hn' bits).2 k i j h1 h2
    · rw [if_neg hp]
      constructor
      · intro k i h1 h2
        cases k with
        | zero =>
          cases Option.some.inj h1
          exact absurd h2 hp
        | succ k => exact (ih hn' bits.tail).1 k i h1 h2
      · intro k i j h1 h2
        rw [List.filter_cons_of_pos (p := fun i => !isParityPosition i) (by simpa using hp)] at h2
        cases k with
        | zero =>
          cases Option.some.inj h1
          cases j with
          | zero => cases bits <;> rfl
          | succ j => exact absurd h2 (hout j)
        | succ k =>
          rw [List.getElem?_cons_succ] at h1
          cases j with
          | zero =>
            cases Option.some.inj h2
            exact absurd (List.mem_of_getElem? h1) ha
          | succ j =>
            rw [List.getElem?_cons_succ, (ih hn' bits.tail).2 k i j h1 h2]
            cases bits <;> simp

theorem testBit_foldr_bits (bits : List Bool) (i : Nat) :
    (bits.foldr (fun (b : Bool) v => b.toNat + 2 * v) 0).testBit i = bits.getD i false := by
  induction bits generalizing i with
  | nil => simp
  | cons b bits ih =>
    rw [List.foldr_cons]
    cases i with
    | zero =>
      cases b <;> simp [Nat.testBit_zero]
    | succ i =>
      rw [Nat.testBit_succ, List.getD_cons_succ, ← ih]
      congr 1
      cases b with
      | false => simp
      | true =>
        simp
        omega

theorem getLsbD_presentSlots {m : Nat} (slots : List Slot) {i : Nat} (hi : i < 2 ^ m) :
    (presentSlots m slots).getLsbD i = (slots.map Slot.bit).getD i false := by
  rw [presentSlots, BitVec.getLsbD_ofNat, testBit_foldr_bits, decide_eq_true hi, Bool.true_and]

theorem dataBits_encBlock {m : Nat} (b : Block m) : dataBits (encBlock b) = dataBits b := by
  refine List.map_congr_left fun i hi => ?_
  obtain ⟨hlt, hp⟩ := (mem_dataPositions _ _).1 hi
  exact encBlock_data b hlt hp

/-- The data bits of a chunked block are the next K bits, padded with zeros. -/
theorem dataBits_presentSlots (m : Nat) (bits : List Bool) :
    dataBits (presentSlots m (fillSlots (List.range (2 ^ m)) bits).1) =
      takePad (dataPositions (2 ^ m)).length bits := by
  have hz := fillSlots_data (List.range (2 ^ m)) bits
  have hl : (fillSlots (List.range (2 ^ m)) bits).1.length = 2 ^ m := by
    rw [length_fillSlots, List.length_range]
  generalize hs : (fillSlots (List.range (2 ^ m)) bits).1 = slots at hz hl
  have hzip : (List.range (2 ^ m)).zip slots = (List.range (2 ^ m)).map fun i => (i, slots.getD i .reserved) := by
    refine List.ext_getElem (by simp [hl]) fun i h1 h2 => ?_
    have : i < slots.length := by
      rw [List.length_zip, List.length_range] at h1
      omega
    simp [this]
  rw [hzip, List.filter_map, List.map_map] at hz
  rw [dataPositions, ← hz, dataBits, dataPositions]
  refine List.map_congr_left fun i hi => ?_
  have hi' : i < 2 ^ m := by simpa using (List.mem_filter.1 hi).1
  rw [getLsbD_presentSlots slots hi', Function.comp_apply]
  simp only [List.getD_eq_getElem?_getD, List.getElem?_map]
  have : i < slots.length := by omega
  simp [this]

/-- Block k of a chunk is the walk over the bits from kK on. -/
theorem eq_fillSlots_of_chunkBlocks {n fuel k : Nat} {bits : List Bool} {slots : List Slot}
    (h : (chunkBlocks n fuel bits)[k]? = some slots) :
    slots = (fillSlots (List.range n) (bits.drop (k * (dataPositions n).length))).1 := by
  induction fuel generalizing bits k with
  | zero => simp [chunkBlocks] at h
  | succ fuel ih =>
    cases bits with
    | nil => simp [chunkBlocks] at h
    | cons b bits =>
      rw [chunkBlocks] at h
      cases k with
      | zero =>
        cases Option.some.inj h
        simp
      | succ k =>
        rw [List.getElem?_cons_succ, fillSlots_rest] at h
        rw [ih h, List.drop_drop]
        congr 3
        rw [Nat.succ_mul, Nat.add_comm]
        rfl

theorem dataPositions_ne_nil {m : Nat} (h : 2 ≤ m) : dataPositions (2 ^ m) ≠ [] := by
  intro h0
  have h3 : 3 ∈ dataPositions (2 ^ m) := by
    rw [mem_dataPositions]
    refine ⟨?_, by decide⟩
    calc 3 < 2 ^ 2 := by decide
      _ ≤ 2 ^ m := Nat.pow_le_pow_right (by decide) h
  rw [h0] at h3
  cases h3

/-- What chunk's blocks carry: the number of blocks is ceil(L / K), and their data bits are the input, padded
with zeros (45_host_framing.md R73). -/
theorem chunkBlocks_spec {m : Nat} (hm : 2 ≤ m) (fuel : Nat) (bits : List Bool) (h : bits.length ≤ fuel) :
    (chunkBlocks (2 ^ m) fuel bits).length =
        (bits.length + (dataPositions (2 ^ m)).length - 1) / (dataPositions (2 ^ m)).length ∧
      (chunkBlocks (2 ^ m) fuel bits).flatMap (fun s => dataBits (presentSlots m s)) =
        bits ++ List.replicate
          ((chunkBlocks (2 ^ m) fuel bits).length * (dataPositions (2 ^ m)).length - bits.length) false := by
  have hk : 0 < (dataPositions (2 ^ m)).length := List.length_pos_of_ne_nil (dataPositions_ne_nil hm)
  induction fuel generalizing bits with
  | zero =>
    have : bits = [] := List.length_eq_zero_iff.1 (by omega)
    subst this
    refine ⟨?_, by simp [chunkBlocks]⟩
    simp only [chunkBlocks, List.length_nil, Nat.zero_add]
    exact (Nat.div_eq_of_lt (by omega)).symm
  | succ fuel ih =>
    cases bits with
    | nil =>
      refine ⟨?_, by simp [chunkBlocks]⟩
      simp only [chunkBlocks, List.length_nil, Nat.zero_add]
      exact (Nat.div_eq_of_lt (by omega)).symm
    | cons b bits =>
      have hrest : (fillSlots (List.range (2 ^ m)) (b :: bits)).2 =
          (b :: bits).drop (dataPositions (2 ^ m)).length := fillSlots_rest _ _
      have hstep : chunkBlocks (2 ^ m) (fuel + 1) (b :: bits) =
          (fillSlots (List.range (2 ^ m)) (b :: bits)).1 ::
            chunkBlocks (2 ^ m) fuel ((b :: bits).drop (dataPositions (2 ^ m)).length) := by
        rw [chunkBlocks, hrest]
      generalize hK : (dataPositions (2 ^ m)).length = K at *
      obtain ⟨hl, hd⟩ := ih ((b :: bits).drop K) (by
        rw [List.length_drop]
        simp only [List.length_cons] at h ⊢
        omega)
      rw [hstep, List.length_cons, List.flatMap_cons, dataBits_presentSlots, hK, hd, hl, takePad_eq]
      generalize hb : b :: bits = xs at *
      have hpos : 0 < xs.length := by rw [← hb]; simp
      rw [List.length_drop]
      by_cases hle : xs.length ≤ K
      · have e0 : (xs.length - K + K - 1) / K = 0 := Nat.div_eq_of_lt (by omega)
        have e1 : (xs.length + K - 1) / K = 1 := Nat.div_eq_of_lt_le (by omega) (by omega)
        rw [e0, e1]
        refine ⟨rfl, ?_⟩
        rw [List.take_of_length_le hle, List.drop_eq_nil_of_le hle]
        simp
      · have e1 : (xs.length + K - 1) / K = (xs.length - K + K - 1) / K + 1 := by
          rw [← Nat.add_div_right _ hk]
          congr 1
          omega
        refine ⟨e1.symm, ?_⟩
        have z : K - xs.length = 0 := by omega
        rw [z, List.replicate_zero, List.append_nil, ← List.append_assoc, List.take_append_drop,
          Nat.add_mul, Nat.one_mul]
        congr 2
        omega

theorem chunk_eq_ok {m : Nat} (hm : 2 ≤ m) (bits : List Bool) :
    chunk m bits = .ok (chunkBlocks (2 ^ m) bits.length bits) := by
  unfold chunk
  rw [if_neg (by omega)]
  split
  · next h => rw [h]; rfl
  · rw [if_neg (dataPositions_ne_nil hm)]

/-! ## join, encode, decode -/

/-- The joined data bits of the encoded chunks: the input, padded to B·K bits (45_host_framing.md R79). -/
theorem flatMap_dataBits_enc {m : Nat} (blocks : List (List Slot)) :
    ((blocks.map (presentSlots m)).map encBlock).flatMap dataBits =
      blocks.flatMap fun s => dataBits (presentSlots m s) := by
  rw [List.map_map, List.flatMap_map]
  exact List.flatMap_congr fun s _ => dataBits_encBlock _

theorem length_join_mod {m : Nat} (blocks : List (Block m)) : (join blocks).length % 8 = 0 := by
  rw [join]
  simp only [List.length_take]
  omega

theorem encodeBlocks_eq_ok {m : Nat} (hm : 2 ≤ m) {text : List Nat} (h : ∀ c ∈ text, c ≤ 255) :
    encodeBlocks m text =
      .ok ((chunkBlocks (2 ^ m) (text.flatMap byteBits).length (text.flatMap byteBits)).map
        fun s => encBlock (presentSlots m s)) := by
  rw [encodeBlocks, messageBlocks, (toBinary_eq_ok text _).2 ⟨h, rfl⟩]
  simp only [chunk_eq_ok hm]
  rw [List.map_map]
  rfl

/-- Joining the encoded chunks of a text and reading it back gives the text and the NULs of the padding
(45_host_framing.md R78). -/
theorem toAscii_join_padded {text : List Nat} (h : ∀ c ∈ text, c ≤ 255) {total : Nat}
    (ht : 8 * text.length ≤ total) :
    toAscii ((text.flatMap byteBits ++ List.replicate (total - 8 * text.length) false).take (total / 8 * 8)) =
      .ok (text ++ List.replicate (total / 8 - text.length) 0) := by
  have hl := length_flatMap_byteBits text
  rw [List.take_append, List.take_of_length_le (by omega), List.take_replicate]
  refine toAscii_flatMap_append h ?_
  have e : min (total / 8 * 8 - (text.flatMap byteBits).length) (total - 8 * text.length) =
      8 * (total / 8 - text.length) := by omega
  rw [e, toAscii_zeros]

end Sys2Proof.Machine
end

