-- ==== Sys2Proof/Laws/Assembler.lean ====
section
/-! SUPPORT. The assembler of spec/30_encoding.md R39: what its parsers answer. -/

namespace Sys2Proof.Machine

/-- What may stand at index `i` of a quoted block: a bit, or with ENC an `r` at a parity position
(30_encoding.md R39). -/
def LegalSlot (op : OpWord) (i : Nat) (c : Char) : Prop :=
  c = '0' ∨ c = '1' ∨ (c = 'r' ∧ op = 0b00#2 ∧ isParityPosition i = true)

theorem quotedBit_of_legal {op : OpWord} {i : Nat} {c : Char} (h : LegalSlot op i c) :
    c ≠ dquote ∧ quotedBit op i c = .ok (decide (c = '1')) := by
  rcases h with rfl | rfl | ⟨rfl, hop, hp⟩
  · exact ⟨by decide, rfl⟩
  · exact ⟨by decide, rfl⟩
  · refine ⟨by decide, ?_⟩
    rw [quotedBit, if_neg (by decide), if_neg (by decide), if_pos rfl, if_pos ⟨hop, hp⟩]
    rfl

/-- A quoted block of legal characters is read as the number whose bit i is 1 where character i is. -/
theorem parseQuoted_legal {op : OpWord} {cs : List Char} (tail : List Char) {i : Nat}
    (h : ∀ j c, cs[j]? = some c → LegalSlot op (i + j) c) :
    parseQuoted op i (cs ++ dquote :: tail) =
      .ok ((cs.map fun c => decide (c = '1')).foldr (fun (b : Bool) v => b.toNat + 2 * v) 0,
        cs.length, tail) := by
  induction cs generalizing i with
  | nil => rfl
  | cons c cs ih =>
    obtain ⟨hq, hb⟩ := quotedBit_of_legal (h 0 c rfl)
    have hrest := ih (i := i + 1) fun j c hj => by
      rw [Nat.add_assoc, Nat.add_comm 1 j]
      exact h (j + 1) c hj
    rw [List.cons_append, parseQuoted, if_neg hq]
    rw [Nat.add_zero] at hb
    simp only [hb, hrest]
    rfl

/-- An `r` out of place is refused, after any legal characters (30_encoding.md R39). -/
theorem parseQuoted_misplaced {op : OpWord} {cs : List Char} (tail : List Char) {i : Nat}
    (h : ∀ j c, cs[j]? = some c → LegalSlot op (i + j) c)
    (hr : ¬ (op = 0b00#2 ∧ isParityPosition (i + cs.length) = true)) :
    parseQuoted op i (cs ++ 'r' :: tail) = .error .misplacedReserved := by
  induction cs generalizing i with
  | nil =>
    rw [List.nil_append, parseQuoted, if_neg (by decide), quotedBit, if_neg (by decide),
      if_neg (by decide), if_pos rfl, if_neg (by simpa using hr)]
  | cons c cs ih =>
    obtain ⟨hq, hb⟩ := quotedBit_of_legal (h 0 c rfl)
    have hrest := ih (i := i + 1)
      (fun j c hj => by
        rw [Nat.add_assoc, Nat.add_comm 1 j]
        exact h (j + 1) c hj)
      (by rwa [List.length_cons, Nat.add_comm cs.length 1, ← Nat.add_assoc] at hr)
    rw [List.cons_append, parseQuoted, if_neg hq]
    rw [Nat.add_zero] at hb
    simp only [hb, hrest]

/-- A run of hex digits is read to its end, whatever no digit begins after it. -/
theorem takeHex_digits {cs : List Char} {ds : List Nat}
    (h : List.Forall₂ (fun c d => hexDigit c = some d) cs ds) {tail : List Char}
    (ht : ∀ c ∈ tail.head?, hexDigit c = none) (count v : Nat) :
    takeHex (cs ++ tail) count v = (count + ds.length, ds.foldl (fun v d => 16 * v + d) v, tail) := by
  induction h generalizing count v with
  | nil =>
    cases tail with
    | nil => rfl
    | cons c tail =>
      rw [List.nil_append, takeHex, ht c rfl]
      rfl
  | cons hcd _ ih =>
    rw [List.cons_append, takeHex, hcd]
    simp only [ih, List.length_cons, List.foldl_cons]
    congr 1
    omega

/-- What is left of a line after its block, where the line assembles. -/
theorem endsLine_iff (l : List Char) : endsLine l = true ↔ l = [] ∨ ∃ rest, l = ' ' :: ';' :: rest := by
  unfold endsLine
  split
  · simp
  · simp
  · next h1 h2 =>
    simp only [Bool.false_eq_true, false_iff, not_or, not_exists]
    exact ⟨h1, fun rest h => h2 rest h⟩

/-- The mnemonic of an operation is read as its op value, and of no other (30_encoding.md R32, R39). -/
theorem opOfMnemonic_eq_some {a b c : Char} {op : OpWord} :
    opOfMnemonic a b c = some op ↔ ∀ blk, [a, b, c] = mnemonicOf (instrOfOp op blk) := by
  unfold opOfMnemonic
  constructor
  · intro h blk
    split at h
    · next e => obtain ⟨rfl, rfl, rfl⟩ := e; cases h; rfl
    · split at h
      · next e => obtain ⟨rfl, rfl, rfl⟩ := e; cases h; rfl
      · split at h
        · next e => obtain ⟨rfl, rfl, rfl⟩ := e; cases h; rfl
        · split at h
          · next e => obtain ⟨rfl, rfl, rfl⟩ := e; cases h; rfl
          · cases h
  · intro h
    have hop : ∀ o : OpWord, o = 0b00#2 ∨ o = 0b01#2 ∨ o = 0b10#2 ∨ o = 0b11#2 := by decide
    have h0 := h 0
    rcases hop op with rfl | rfl | rfl | rfl <;> (cases h0; rfl)

/-- The low n bits of a number, read back (30_encoding.md R31). -/
theorem foldr_testBit (n blk : Nat) :
    ((List.range n).map fun i => blk.testBit i).foldr (fun (b : Bool) v => b.toNat + 2 * v) 0 =
      blk % 2 ^ n := by
  apply Nat.eq_of_testBit_eq
  intro i
  rw [testBit_foldr_bits, Nat.testBit_mod_two_pow]
  by_cases h : i < n <;> simp [h]

theorem parseQuoted_lt {op : OpWord} {cs rest : List Char} {i v len : Nat}
    (h : parseQuoted op i cs = .ok (v, len, rest)) : v < 2 ^ len := by
  induction cs generalizing i v len rest with
  | nil => simp [parseQuoted] at h
  | cons c cs ih =>
    rw [parseQuoted] at h
    split at h
    · cases h
      decide
    · split at h
      · cases h
      · split at h
        · cases h
        · next b _ _ v' len' rest' h' =>
          cases h
          have := ih h'
          rw [Nat.pow_succ]
          cases b <;> simp <;> omega

/-- Whatever block the assembler accepts, N bits hold (30_encoding.md R39). -/
theorem parseBlock_lt {m : Nat} {op : OpWord} {cs rest : List Char} {v : Nat}
    (h : parseBlock m op cs = .ok (v, rest)) : v < 2 ^ 2 ^ m := by
  unfold parseBlock at h
  split at h
  · simp only at h
    split at h
    · cases h
    · split at h
      · next h' =>
        cases h
        exact h'
      · cases h
  · split at h
    · split at h
      · cases h
      · next v' len rest' h' =>
        split at h
        · next hl =>
          cases h
          rw [← hl]
          exact parseQuoted_lt h'
        · cases h
    · cases h
  · cases h

/-- A quoted block whose characters are read is the block read, where there are N of them. -/
theorem parseBlock_quoted {m : Nat} {op : OpWord} {cs rest : List Char} {v len : Nat}
    (h : parseQuoted op 0 cs = .ok (v, len, rest)) :
    parseBlock m op (dquote :: cs) = if len = 2 ^ m then .ok (v, rest) else .error .wrongLength := by
  rw [parseBlock.eq_2 _ _ _ _ fun _ hx => absurd hx (by decide), if_pos rfl]
  simp only [h]

/-- A quoted block with a character that is refused is refused. -/
theorem parseBlock_quoted_error {m : Nat} {op : OpWord} {cs : List Char} {e : AsmError}
    (h : parseQuoted op 0 cs = .error e) : parseBlock m op (dquote :: cs) = .error e := by
  rw [parseBlock.eq_2 _ _ _ _ fun _ hx => absurd hx (by decide), if_pos rfl]
  simp only [h]

/-- A hex block is the number its digits write, where N bits hold it. -/
theorem parseBlock_hex {m : Nat} {op : OpWord} {cs rest : List Char} {count v : Nat}
    (h : takeHex cs 0 0 = (count, v, rest)) (hc : count ≠ 0) :
    parseBlock m op ('0' :: 'x' :: cs) = if v < 2 ^ 2 ^ m then .ok (v, rest) else .error .literalTooWide := by
  rw [parseBlock]
  simp only [h, if_neg hc]

/-- A line with the mnemonic of `i`, a block and a comment or nothing assembles to the word of that operation
and that block (30_encoding.md R39). -/
theorem assemble_of_block {m : Nat} {i : Instr} {cs rest : List Char} {v : Nat}
    (h : parseBlock m (opcode i) cs = .ok (v, rest)) (he : endsLine rest = true) :
    assemble m (mnemonicOf i ++ ' ' :: cs) = .ok (encode m (instrOfOp (opcode i) v)) := by
  have key : ∀ {a b c : Char}, opOfMnemonic a b c = some (opcode i) →
      assemble m (a :: b :: c :: ' ' :: cs) = .ok (encode m (instrOfOp (opcode i) v)) := by
    intro a b c ho
    rw [assemble]
    simp only [ho, h, he, if_true]
  cases i <;> exact key rfl

/-- A line whose block is refused is refused for the same reason. -/
theorem assemble_of_badBlock {m : Nat} {i : Instr} {cs : List Char} {e : AsmError}
    (h : parseBlock m (opcode i) cs = .error e) : assemble m (mnemonicOf i ++ ' ' :: cs) = .error e := by
  have key : ∀ {a b c : Char}, opOfMnemonic a b c = some (opcode i) →
      assemble m (a :: b :: c :: ' ' :: cs) = .error e := by
    intro a b c ho
    rw [assemble]
    simp only [ho, h]
  cases i <;> exact key rfl

end Sys2Proof.Machine
end

