-- ==== Sys2Proof/Laws/State.lean ====
section
/-! SUPPORT. One lemma for each field of State and each named update. -/

namespace Sys2Proof.Machine

@[simp] theorem deliver_size (s : State) (r : Response s.m) : (s.deliver r).size = s.size := rfl
@[simp] theorem deliver_ports (s : State) (r : Response s.m) : (s.deliver r).ports = r := rfl
@[simp] theorem deliver_inbox (s : State) (r : Response s.m) : (s.deliver r).inbox = s.inbox := rfl
@[simp] theorem deliver_delivered (s : State) (r : Response s.m) :
    (s.deliver r).delivered = s.delivered ++ [r] := rfl

@[simp] theorem takeReset_size (s : State) : (s.takeReset).size = s.size := rfl
@[simp] theorem takeReset_ports (s : State) :
    (s.takeReset).ports = .idle s.m := rfl
@[simp] theorem takeReset_inbox (s : State) : (s.takeReset).inbox = s.inbox := rfl
@[simp] theorem takeReset_delivered (s : State) :
    (s.takeReset).delivered = s.delivered := rfl

@[simp] theorem present_size (s : State) (e : HostEvent s.m) : (s.present e).size = s.size := rfl
@[simp] theorem present_ports (s : State) (e : HostEvent s.m) : (s.present e).ports = s.ports := rfl
@[simp] theorem present_inbox (s : State) (e : HostEvent s.m) :
    (s.present e).inbox = e :: s.inbox := rfl
@[simp] theorem present_delivered (s : State) (e : HostEvent s.m) :
    (s.present e).delivered = s.delivered := rfl

@[simp] theorem resetOf_size (z : BlockSize) : (State.resetOf z).size = z := rfl
@[simp] theorem resetOf_ports (z : BlockSize) : (State.resetOf z).ports = .idle z.m := rfl
@[simp] theorem resetOf_inbox (z : BlockSize) : (State.resetOf z).inbox = [] := rfl
@[simp] theorem resetOf_delivered (z : BlockSize) : (State.resetOf z).delivered = [] := rfl

@[simp] theorem idle_blkOut (m : Nat) : (Response.idle m).blkOut = 0 := rfl
@[simp] theorem idle_syn (m : Nat) : (Response.idle m).syn = 0 := rfl
@[simp] theorem idle_loc (m : Nat) : (Response.idle m).loc = BitVec.allOnes (m + 1) := rfl

end Sys2Proof.Machine
end

