-- ==== Sys2Proof/Laws/Ops.lean ====
section
/-! SUPPORT. One lemma for each shared operation, each meaning and the step: everything it can do. -/

namespace Sys2Proof.Machine

theorem operand?_toNat {m : Nat} (b : Block m) : operand? m b.toNat = some b := by
  rw [operand?, if_pos b.isLt, BitVec.ofNat_toNat, BitVec.setWidth_eq]

theorem operand?_of_lt {m blk : Nat} (h : blk < 2 ^ 2 ^ m) :
    operand? m blk = some (BitVec.ofNat (2 ^ m) blk) := if_pos h

theorem operand?_of_ge {m blk : Nat} (h : 2 ^ 2 ^ m ≤ blk) : operand? m blk = none :=
  if_neg (Nat.not_lt.2 h)

theorem respond_toNat (s : State) (b : Block s.m) (f : Block s.m → Response s.m) :
    respond s b.toNat f = .next (s.deliver (f b)) := by
  rw [respond, operand?_toNat]

theorem respond_wide (s : State) {blk : Nat} (h : 2 ^ 2 ^ s.m ≤ blk) (f : Block s.m → Response s.m) :
    respond s blk f = .refused .operandTooWide := by
  rw [respond, operand?_of_ge h]

/-- Everything `respond` can do. -/
theorem respond_cases (s : State) (blk : Nat) (f : Block s.m → Response s.m) :
    (∃ b : Block s.m, b.toNat = blk ∧ respond s blk f = .next (s.deliver (f b))) ∨
      (2 ^ 2 ^ s.m ≤ blk ∧ respond s blk f = .refused .operandTooWide) := by
  by_cases h : blk < 2 ^ 2 ^ s.m
  · refine .inl ⟨BitVec.ofNat _ blk, ?_, ?_⟩
    · rw [BitVec.toNat_ofNat, Nat.mod_eq_of_lt h]
    · rw [respond, operand?_of_lt h]
  · exact .inr ⟨Nat.not_lt.1 h, respond_wide s (Nat.not_lt.1 h) f⟩

/-- A meaning is RESP of its op and its operand (30_encoding.md R33). -/
theorem exec_eq_respond (i : Instr) (s : State) :
    exec i s = respond s i.blk fun b => resp (opcode i) b := by
  cases i
  · exact congrArg (respond s _) (funext fun b => by rw [enc2c_neg_one]; rfl)
  · exact congrArg (respond s _) (funext fun b => by rw [enc2c_neg_one]; rfl)
  · rfl
  · rfl

/-- Everything a meaning can do: deliver RESP of its operand, or refuse an operand wider than N bits. -/
theorem exec_cases (i : Instr) (s : State) :
    (∃ b : Block s.m, b.toNat = i.blk ∧ exec i s = .next (s.deliver (resp (opcode i) b))) ∨
      (2 ^ 2 ^ s.m ≤ i.blk ∧ exec i s = .refused .operandTooWide) := by
  rw [exec_eq_respond]
  exact respond_cases s i.blk _

theorem execEnc_toNat (s : State) (b : Block s.m) :
    execEnc b.toNat s = .next (s.deliver ⟨encBlock b, 0, BitVec.allOnes (s.m + 1)⟩) := by
  rw [execEnc, respond_toNat, enc2c_neg_one]

theorem execSyn_toNat (s : State) (b : Block s.m) :
    execSyn b.toNat s = .next (s.deliver ⟨0, synWord b, BitVec.allOnes (s.m + 1)⟩) := by
  rw [execSyn, respond_toNat, enc2c_neg_one]

theorem execLoc_toNat (s : State) (b : Block s.m) :
    execLoc b.toNat s = .next (s.deliver ⟨0, synWord b, locWord b⟩) := respond_toNat s b _

theorem execCor_toNat (s : State) (b : Block s.m) :
    execCor b.toNat s = .next (s.deliver ⟨corBlock b, synWord b, locWord b⟩) := respond_toNat s b _

/-- Running a decoded request word delivers RESP of the word. -/
theorem exec_decodeReq_eq (s : State) (w : Req s.m) :
    exec (decodeReq w) s = .next (s.deliver (respReq w)) := by
  rw [exec_eq_respond, blk_decodeReq, opcode_decodeReq, respond_toNat]
  rfl

/-- The same, for a state whose pending event has been taken. -/
theorem exec_decodeReq_rest (s : State) (w : Req s.m) (rest : List (HostEvent s.m)) :
    exec (decodeReq w) { s with inbox := rest } =
      .next { s with ports := respReq w, inbox := rest, delivered := s.delivered ++ [respReq w] } :=
  exec_decodeReq_eq { s with inbox := rest } w

theorem heldStable_iff {m : Nat} (w : Req m) (held : List (Req m)) :
    heldStable w held = true ↔ ∀ x ∈ held, x = w := by
  rw [heldStable, List.all_eq_true]
  exact forall₂_congr fun x _ => beq_iff_eq

/-- What a request, or one that reset interrupts, asks of the host (70_reset_and_hazards.md R94). -/
@[simp] theorem stable_request {m : Nat} (w : Req m) (held : List (Req m)) :
    (HostEvent.request w held).stable = heldStable w held := rfl
@[simp] theorem stable_reset_none (m : Nat) : (HostEvent.reset none : HostEvent m).stable = true := rfl
@[simp] theorem stable_reset_some {m : Nat} (w : Req m) (held : List (Req m)) :
    (HostEvent.reset (some (w, held))).stable = heldStable w held := rfl

theorem stable_reset_iff {m : Nat} (inFlight : Option (Req m × List (Req m))) :
    (HostEvent.reset inFlight).stable = true ↔
      inFlight = none ∨ ∃ w held, inFlight = some (w, held) ∧ ∀ x ∈ held, x = w := by
  rcases inFlight with _ | ⟨w, held⟩
  · simp
  · simp [heldStable_iff]

/-- A request word is presented whole, held stable. -/
theorem presentWord_toNat (s : State) (w : Req s.m) :
    s.presentWord w.toNat = s.present (.request w []) := by
  rw [State.presentWord, if_pos w.isLt, BitVec.ofNat_toNat, BitVec.setWidth_eq]

/-- A number that N+2 bits cannot hold presents nothing. -/
theorem presentWord_of_ge (s : State) {w : Nat} (h : 2 ^ (2 ^ s.m + 2) ≤ w) : s.presentWord w = s :=
  if_neg (Nat.not_lt.2 h)

/-- Everything a step can do. -/
theorem step_cases (s : State) :
    (s.inbox = [] ∧ step s = .next s) ∨
    (∃ inFlight rest, s.inbox = .reset inFlight :: rest ∧ (HostEvent.reset inFlight).stable = true ∧
      step s = .next { s with ports := .idle s.m, inbox := rest }) ∨
    (∃ w held rest, s.inbox = .request w held :: rest ∧ heldStable w held = true ∧
      step s = .next (State.deliver { s with inbox := rest } (respReq w))) ∨
    (∃ e rest, s.inbox = e :: rest ∧ e.stable = false ∧ step s = .refused .requestChanged) := by
  cases h : s.inbox with
  | nil => exact .inl ⟨rfl, by rw [step, h]⟩
  | cons e rest =>
    cases e with
    | reset x =>
      cases hx : (HostEvent.reset x).stable with
      | true =>
        refine .inr (.inl ⟨x, rest, rfl, hx, ?_⟩)
        rw [step, h]
        simp only [hx, if_true]
        rfl
      | false =>
        refine .inr (.inr (.inr ⟨_, rest, rfl, hx, ?_⟩))
        rw [step, h]
        simp [hx]
    | request w held =>
      cases hh : heldStable w held with
      | true =>
        refine .inr (.inr (.inl ⟨w, held, rest, rfl, hh, ?_⟩))
        rw [step, h]
        simp only [stable_request, hh, if_true]
        exact exec_decodeReq_eq { s with inbox := rest } w
      | false =>
        refine .inr (.inr (.inr ⟨_, rest, rfl, hh, ?_⟩))
        rw [step, h]
        simp [hh]

/-- The response to a request at the head of the inbox, held stable. -/
theorem step_of_request {s : State} {w : Req s.m} {held : List (Req s.m)}
    {rest : List (HostEvent s.m)} (h : s.inbox = .request w held :: rest) (hh : ∀ x ∈ held, x = w) :
    step s = .next { s with ports := respReq w, inbox := rest, delivered := s.delivered ++ [respReq w] } := by
  rw [step, h]
  simp only [stable_request, (heldStable_iff w held).2 hh, if_true]
  exact exec_decodeReq_rest s w rest

/-- A reset at the head of the inbox, with no changed request in flight. -/
theorem step_of_reset {s : State} {inFlight : Option (Req s.m × List (Req s.m))}
    {rest : List (HostEvent s.m)} (h : s.inbox = .reset inFlight :: rest)
    (hh : (HostEvent.reset inFlight).stable = true) :
    step s = .next { s with ports := .idle s.m, inbox := rest } := by
  rw [step, h]
  simp only [hh, if_true]
  rfl

/-- A request changed within its transaction stops the run (70_reset_and_hazards.md R94). -/
theorem step_of_unstable {s : State} {e : HostEvent s.m} {rest : List (HostEvent s.m)}
    (h : s.inbox = e :: rest) (hh : e.stable = false) : step s = .refused .requestChanged := by
  cases e <;> (rw [step, h]; simp [hh])

/-- A run whose first step answers a next state goes on from there. -/
theorem run_of_next {k : Nat} {s t : State} (h : step s = .next t) :
    Host.Core.run Sys2Proof.core (k + 1) s = Host.Core.run Sys2Proof.core k t := by
  have h' : Sys2Proof.core.step s = .next t := h
  refine (Host.Core.run.eq_2 Sys2Proof.core s k).trans ?_
  rw [h']

/-- Every response RESP gives is legal (30_encoding.md R34). -/
theorem resp_legal {m : Nat} (op : OpWord) (b : Block m) : (resp op b).Legal := by
  have hidle : legalLoc (BitVec.allOnes (m + 1)) := fun _ => rfl
  by_cases hop : op = 0b10#2 ∨ op = 0b11#2
  · have hl : (resp op b).loc = locWord b := if_pos hop
    have hs : (resp op b).syn = synWord b := by
      refine if_neg ?_
      rintro rfl
      revert hop
      decide
    rw [Response.Legal, hl, hs, toNat_synWord]
    rcases locate_range b with h | ⟨l, hlt, h⟩
    · rw [locWord_of_noError h]
      exact ⟨hidle, fun hm => by rw [msb_allOnes_succ] at hm; cases hm⟩
    · refine ⟨fun hm => ?_, fun _ hne => ?_⟩
      · rw [msb_locWord_of_locate h hlt] at hm; cases hm
      · rw [toNat_locWord_of_locate h hlt]
        rw [locate_of_syndrome_ne hne] at h
        exact (Int.ofNat.inj h).symm
  · have hl : (resp op b).loc = BitVec.allOnes (m + 1) := if_neg hop
    rw [Response.Legal, hl]
    exact ⟨hidle, fun hm => by rw [msb_allOnes_succ] at hm; cases hm⟩

end Sys2Proof.Machine
end

