-- ==== Sys2Proof/Laws/PerInstr.lean ====
section
/-! SUPPORT. Facts about the operations as syntax, one lemma for each constructor of Instr. -/

namespace Sys2Proof.Laws

/-- Encoding an operation drops nothing of its operand and gives it an op value of its own
(spec/30_encoding.md R30, R32). -/
def EncodeFields.Statement (i : Instr) : Prop :=
  ∀ m, i.wellFormed m = true →
    opField (encode m i) = opcode i ∧ (blkField (encode m i)).toNat = i.blk

theorem EncodeFields.all (i : Instr) : EncodeFields.Statement i := fun m h =>
  ⟨opField_encode m i, by
    rw [toNat_blkField_encode, Nat.mod_eq_of_lt ((wellFormed_iff m i).1 h)]⟩

theorem EncodeFields.enc (blk : Nat) : EncodeFields.Statement (.enc blk) := EncodeFields.all _
theorem EncodeFields.syn (blk : Nat) : EncodeFields.Statement (.syn blk) := EncodeFields.all _
theorem EncodeFields.loc (blk : Nat) : EncodeFields.Statement (.loc blk) := EncodeFields.all _
theorem EncodeFields.cor (blk : Nat) : EncodeFields.Statement (.cor blk) := EncodeFields.all _

end Sys2Proof.Laws
end

