-- ==== Sys2Proof/Laws/Platform.lean ====
section
/-! SUPPORT. What building a platform and a step of one instance can do (spec/00_scope.md R6,
spec/60_exceptions.md R87). -/

namespace Sys2Proof.Machine

theorem build_eq_some (l : List State) (p : Platform) :
    Platform.build l = some p ↔ p.instances = l := by
  unfold Platform.build
  constructor
  · intro h
    split at h
    · cases h
      rfl
    · cases h
  · rintro rfl
    rw [dif_pos p.nonempty]

theorem build_nil : Platform.build [] = none := rfl

theorem one_le_count (p : Platform) : 1 ≤ p.count := List.length_pos_of_ne_nil p.nonempty

@[simp] theorem put_instances (p : Platform) (k : Nat) (t : State) :
    (p.put k t).instances = p.instances.set k t := rfl

theorem put_comm (p : Platform) {j k : Nat} (h : j ≠ k) (s t : State) :
    (p.put j s).put k t = (p.put k t).put j s := by
  simp only [Platform.put, List.set_comm _ _ h]

theorem stepAt_of_next {p : Platform} {k : Nat} {s t : State} (h : p.instances[k]? = some s)
    (ht : step s = .next t) : p.stepAt k = some (.next (p.put k t)) := by
  rw [Platform.stepAt, h]
  simp only [ht]

end Sys2Proof.Machine
end

