-- ==== Sys2Proof/Tests/Slice0.lean ====
section
/-! SUPPORT. Tests on values that stand in the spec (spec/95_test_vectors.md unless said otherwise), and a
witness for the hypotheses of each statement. -/

namespace Sys2Proof.Tests

open Sys2Proof Sys2Proof.Machine Sys2Proof.Claims

/-- N = 2, 4, 8 and 32. -/
def n2 : BlockSize := ⟨1, by decide⟩
def n4 : BlockSize := ⟨2, by decide⟩
def n8 : BlockSize := ⟨3, by decide⟩
def n32 : BlockSize := ⟨5, by decide⟩

/-- The ports after one step from reset that is given the request word `w`. -/
def answer (z : BlockSize) (w : Nat) : Option (Nat × Nat × Nat) :=
  match step ((State.resetOf z).withFetchWord 0 w) with
  | .next t => some (t.ports.blkOut.toNat, t.ports.syn.toNat, t.ports.loc.toNat)
  | _ => none

/-! ## Well-formedness: an operand wider than N bits is refused by the check -/

theorem test_wellFormed_refuses_enc : (Instr.enc 0x10000).wellFormed 4 = false := by decide
theorem test_wellFormed_refuses_syn : (Instr.syn 0x100).wellFormed 3 = false := by decide
theorem test_wellFormed_refuses_loc : (Instr.loc 0x10).wellFormed 2 = false := by decide
theorem test_wellFormed_refuses_cor : (Instr.cor 4).wellFormed 1 = false := by decide
theorem test_wellFormed_accepts_widest : (Instr.cor 0xFFFF).wellFormed 4 = true := by decide

/-! ## Decoding: words written out from 30_encoding.md R30, R32 (op above blk_in, N = 16) -/

theorem test_decode_enc : decodeReq (m := 4) 0b00_1100001001100000#18 = .enc 0xC260 := by decide
theorem test_decode_syn : decodeReq (m := 4) 0b01_1100011101100110#18 = .syn 0xC766 := by decide
theorem test_decode_loc : decodeReq (m := 4) 0b10_1100011101100110#18 = .loc 0xC766 := by decide
theorem test_decode_cor : decodeReq (m := 4) 0b11_1100011101100110#18 = .cor 0xC766 := by decide

/-- 30_encoding.md R39: `COR 0xC766` assembles to 0x3C766. -/
theorem test_encode_cor : encode 4 (.cor 0xC766) = 0x3C766#18 := by decide

theorem test_decodeTableWord : decodeTableWord 24 0x3C766 = some (.cor 0xC766) := by decide
theorem test_decodeTableWord_wide : decodeTableWord 24 0x40000 = none := by decide

/-! ## The operations, through one step from reset -/

/-- V-RESP line 1: ENC keeps the flipped data bit. -/
theorem test_enc_keeps_data : answer .reference 0x0C766 = some (0xC663, 0x0, 0x1F) := by decide
/-- V-ENC-5: set reserved slots are ignored. -/
theorem test_enc_ignores_reserved : answer .reference 0x0C377 = some (0xC366, 0x0, 0x1F) := by decide
/-- V-SYN-9: two flipped bits. -/
theorem test_syn_two_errors : answer .reference 0x1C34E = some (0, 6, 0x1F) := by decide
/-- V-SYN-8: N = 2. -/
theorem test_syn_n2 : answer n2 0b0111 = some (0, 1, 3) := by decide
/-- V-LOC-8: three errors whose indices XOR to 0 are named as bit 0. -/
theorem test_loc_three_errors : answer .reference 0x2C30E = some (0, 0, 0x00) := by decide
/-- V-LOC-10: four errors are reported as no error. -/
theorem test_loc_four_errors : answer .reference 0x2C369 = some (0, 0, 0x1F) := by decide
/-- V-COR-4: the top bit is restored. -/
theorem test_cor_top_bit : answer .reference 0x34366 = some (0xC366, 0xF, 0x0F) := by decide
/-- V-COR-5: two errors are miscorrected. -/
theorem test_cor_miscorrects : answer .reference 0x3C34E = some (0xC30E, 0x6, 0x06) := by decide

/-- P3 line 3, at N = 8. -/
theorem test_cor_n8 : answer n8 0x341 = some (0x01, 0x6, 0x6) := by decide
/-- P4 line 1, at N = 4. -/
theorem test_enc_n4 : answer n4 0x08 = some (0xF, 0x0, 0x7) := by decide

/-! ## The host's side of a step (70_reset_and_hazards.md R90, R94) -/

theorem test_changed_request : step (State.reset.present (.request 0x3C766#18 [0x3C766#18, 0x2C766#18])) =
    .refused .requestChanged ∧ step State.reset = .next State.reset := ⟨rfl, rfl⟩
/-- 70_reset_and_hazards.md R94, 93_implementation_defined.md U9: changed, then cut by reset. -/
theorem test_changed_then_reset :
    step (State.reset.present (.reset (some (0x3C766#18, [0x2C766#18])))) = .refused .requestChanged := rfl
/-- 70_reset_and_hazards.md R90: a transaction held stable and interrupted is discarded. -/
theorem test_reset_discards : step (State.reset.present (.reset (some (0x3C766#18, [0x3C766#18])))) =
    .next State.reset := rfl
theorem test_reset_idle : State.reset.ports = ⟨0#16, 0#4, 0x1F#5⟩ := by decide

/-! ## Host framing -/

/-- W1: "hello" at N = 16 (character codes 0x68 0x65 0x6C 0x6C 0x6F). -/
theorem test_encode_hello : encodeText 16 [0x68, 0x65, 0x6C, 0x6C, 0x6F] =
    .ok [0xC366, 0xDB42, 0x1B82, 0x0FAA] := by decide +kernel
/-- P2: two corrupted blocks. -/
theorem test_decode_hello : decodeText 16 [0xC366, 0xDB43, 0x1B82, 0x8FAA] =
    .ok [0x68, 0x65, 0x6C, 0x6C, 0x6F] := by decide +kernel
/-- V-HOST: "a" at N = 32 gains two NULs. -/
theorem test_decode_a_n32 : encodeText 32 [0x61] = .ok [0x00001177] ∧
    decodeText 32 [0x00001177] = .ok [0x61, 0, 0] := by decide +kernel
/-- W4: N = 2 is refused. -/
theorem test_encode_n2 : encodeText 2 [0x61] = .error .noDataSlot := by decide
/-- 60_exceptions.md R81. -/
theorem test_encode_bad_size : encodeText 12 [0x61] = .error .configuration := by decide

/-! ## The assembler (30_encoding.md R39) -/

/-- P1 line 1: `ENC "rrr0r110r1000011"`. -/
theorem test_assemble_quoted : assemble 4 "ENC \"rrr0r110r1000011\" ; hello".toList = .ok 0x0C260#18 := by
  decide +kernel
theorem test_assemble_hex : assemble 4 "COR 0xC766".toList = .ok 0x3C766#18 := by decide
theorem test_assemble_too_wide : assemble 4 "SYN 0x1C766".toList = .error .literalTooWide := by decide
theorem test_assemble_short : assemble 4 "LOC \"0110\"".toList = .error .wrongLength := by decide
theorem test_assemble_reserved : assemble 2 "COR \"rrr1\"".toList = .error .misplacedReserved := by decide

/-! ## Witnesses for hypotheses -/

/-- The block 0xC366 of W1, a codeword, and 0xC766, the same with bit 10 flipped. -/
def sent : Block 4 := 0xC366#16
def received : Block 4 := 0xC766#16
/-- Flipped positions {3, 5}, {0, 1, 2, 3} and {3, 5, 6}, and the one data bit of N = 4. -/
def twoFlips : Block 4 := 0x0028#16
def fourFlips : Block 4 := 0x000F#16
def threeFlips : Block 4 := 0x0068#16
def oneData : Block 2 := 0x8#4

theorem witness_EveryRequestWordIsLegal : 0x3FFFF < 2 ^ (2 ^ 4 + 2) := by decide
theorem witness_DecodeEncodeRoundTrip : (Instr.loc 0xFFFF).wellFormed 4 = true := by decide
theorem witness_StepRunsTheEncodedInstruction : (Instr.enc 0).wellFormed State.reset.m = true := by decide
theorem witness_PrintedLineAssembles : (Instr.enc 3).wellFormed 1 = true := by decide

/-- ENC's corner cases: no data bit set, all set, N = 2, a codeword, the worked example. -/
theorem witness_EncComputesEveryParityBit :
    (∀ i < 2 ^ 4, isParityPosition i = false → (0x0117#16 : Block 4).getLsbD i = false) ∧
    (∀ i < 2 ^ 4, isParityPosition i = false → (0xFEE8#16 : Block 4).getLsbD i = true) ∧
    (State.resetOf n2).m = 1 ∧ isCodeword sent = true ∧
    (∀ i < 2 ^ 4, isParityPosition i = false → (0xC377#16 : Block 4).getLsbD i = sent.getLsbD i) ∧
    State.reset.m = 4 ∧ (0xC260#16 : Block 4).toNat = 0xC260 := by decide
theorem witness_SynReportsTheSyndrome :
    isCodeword sent = true ∧ 2 ≤ State.reset.m ∧ (State.resetOf n2).m = 1 ∧
    (0xC367#16 : Block 4) = flipBit sent 0 ∧ received.toNat = 0xC766 := by decide
theorem witness_LocReportsTheLocation :
    isCodeword sent = true ∧ received = flipBit sent 10 ∧ (0x4366#16 : Block 4) = flipBit sent 15 ∧
    (0xC367#16 : Block 4) = flipBit sent 0 ∧ (3#2 : Block 1).toNat = 3 := by decide
/-- COR's two branches, no error and a located bit. -/
theorem witness_CorFlipsTheLocatedBit :
    locWord sent = BitVec.allOnes 5 ∧ locWord received ≠ BitVec.allOnes 5 ∧
    isCodeword sent = true ∧ (0xC367#16 : Block 4) = flipBit sent 0 ∧
    (1#2 : Block 1).toNat = 1 ∧ (3#2 : Block 1).toNat = 3 := by decide
theorem witness_ResponseTableOfEveryOp :
    opField (m := 4) 0x0C766#18 = 0b00#2 ∧ opField (m := 4) 0x1C766#18 = 0b01#2 ∧
    opField (m := 4) 0x2C766#18 = 0b10#2 ∧ opField (m := 4) 0x3C766#18 = 0b11#2 := by decide
theorem witness_EveryRequestHasAResponse : (3 : Nat) < 4 := by decide
theorem witness_OperationsChangeOnlyTheResponse :
    exec (.syn 0xC766) State.reset = .next (after State.reset ⟨0#16, 10#4, 0x1F#5⟩) := by rfl
theorem witness_EncIgnoresReservedPositions :
    (∀ i < 2 ^ 4, isParityPosition i = false →
      (0xC260#16 : Block 4).getLsbD i = (0xC377#16 : Block 4).getLsbD i) ∧
    [8, 4, 2, 1].Perm (parityPositions 4) := by decide
theorem witness_EncKeepsDataPositions :
    3 ∈ dataPositions (2 ^ 2) ∧ (encBlock oneData).getLsbD 0 ≠ oneData.getLsbD 0 := by decide
theorem witness_EncCornerCasesByBlockSize :
    ∀ i < 2 ^ 2, isParityPosition i = false → oneData.getLsbD i = true := by decide
theorem witness_SingleErrorIsLocated : isCodeword sent = true ∧ 15 < 2 ^ 4 := by decide
/-- Two flipped bits, {3, 5}; four whose indices XOR to 0, {0, 1, 2, 3}; three, {3, 5, 6}. -/
theorem witness_MultipleErrorsFollowTheProcedure :
    isCodeword sent = true ∧ ones twoFlips = insert 3 (singleton 5) ∧
    ((ones fourFlips).card % 2 = 0 ∧ xorAll (onesList fourFlips) = 0) ∧
    ((ones threeFlips).card % 2 = 1 ∧ xorAll (onesList threeFlips) = 0) ∧
    xorAll (onesList twoFlips) ≠ 0 := by decide
theorem witness_NoErrorIsAValue : locate sent = -1 ∧ locate received = (10 : Nat) ∧ 15 < 2 ^ 4 := by decide
theorem witness_SingleErrorIsCorrected : received = encBlock (0xC260#16 : Block 4) ^^^ unitBlock 10 := by decide
theorem witness_MiscorrectionIsSilent :
    isCodeword sent = true ∧ (3 : Nat) ≠ 15 ∧ 15 < 2 ^ 4 ∧
    (2 ≤ (ones twoFlips).card ∧ xorAll (onesList twoFlips) ≠ 0) ∧
    (2 ≤ (ones threeFlips).card ∧ xorAll (onesList threeFlips) = 0 ∧ (ones threeFlips).card % 2 = 1) ∧
    2 ≤ (ones fourFlips).card ∧ (ones fourFlips).card % 2 = 0 ∧ xorAll (onesList fourFlips) = 0 := by decide

/-- `COR 0xC766` and `LOC 0xC766`. -/
def corReq : Req 4 := 0x3C766#18
def locReq : Req 4 := 0x2C766#18

/-- The state after reset with a host that is going to do `events`. -/
def hosting (events : List (HostEvent 4)) : State := { State.reset with inbox := events }

theorem witness_StepRunsTheDecodedRequest :
    (hosting [.request corReq [corReq]]).inbox = [HostEvent.request corReq [corReq]] ∧
    ∀ x ∈ [corReq], x = corReq := ⟨rfl, fun _ h => List.mem_singleton.1 h⟩
theorem witness_ChangedRequestIsRefused :
    (hosting [.request corReq [locReq]]).inbox = [HostEvent.request corReq [locReq]] ∧
    ∃ x ∈ [locReq], x ≠ corReq := ⟨rfl, locReq, List.mem_singleton_self _, by decide⟩
/-- A reset of a transaction changed while it was in flight. -/
theorem witness_ChangedRequestIsRefused_reset :
    (hosting [.reset (some (corReq, [corReq, locReq]))]).inbox =
      [HostEvent.reset (some (corReq, [corReq, locReq]))] ∧ locReq ≠ corReq := ⟨rfl, by decide⟩
/-- A reset with nothing in flight and nothing after it, and one of a transaction held for one time unit, before a
request held for one. -/
theorem witness_ResetDiscardsTheTransaction :
    (hosting [.reset none]).inbox = [HostEvent.reset none] ∧
    (hosting [.reset (some (corReq, [corReq])), .request locReq [locReq]]).inbox =
      [HostEvent.reset (some (corReq, [corReq])), HostEvent.request locReq [locReq]] ∧
    StableInFlight (none : Option (Req 4 × List (Req 4))) ∧ StableInFlight (some (corReq, [corReq])) ∧
    ∀ x ∈ [locReq], x = locReq :=
  ⟨rfl, rfl, .inl rfl, .inr ⟨_, _, rfl, fun _ h => List.mem_singleton.1 h⟩, fun _ h => List.mem_singleton.1 h⟩
theorem witness_IdleStepChangesNothing : State.reset.inbox = [] := by decide
theorem witness_ResponsesComeInRequestOrder :
    (hosting [.request corReq [], .request 0x0C260#18 [0x0C260#18], .reset none]).inbox =
      ([(corReq, 0), (0x0C260#18, 1)].map fun p : Req 4 × Nat =>
        HostEvent.request p.1 (List.replicate p.2 p.1)) ++ [.reset none] := rfl
theorem witness_MessageCorrectionIsBlockwise :
    (hosting [.request corReq [], .request 0x3C366#18 []]).inbox =
      ([received, sent].map fun b => HostEvent.request (packed 3 b) []) := rfl
theorem witness_CorruptedMessageIsRestored :
    isCodeword sent = true ∧ atMostOneFlip sent received ∧ atMostOneFlip sent sent ∧
    (hosting [.request corReq [], .request 0x3C366#18 []]).inbox =
      ([(sent, received), (sent, sent)].map fun p => HostEvent.request (packed 3 p.2) []) :=
  ⟨by decide, .inr ⟨10, by decide, by decide⟩, .inl rfl, rfl⟩
theorem witness_BoundaryInvariantIsKept : State.reset.BoundaryInv ∧ step State.reset = .next State.reset :=
  ⟨⟨⟨fun _ => rfl, fun h => absurd h (by decide)⟩, fun _ h => absurd h List.not_mem_nil, .inl rfl⟩, rfl⟩
theorem witness_SafeInboxNeverStops :
    SafeInbox (m := 4) [.request corReq [corReq], .reset none, .reset (some (locReq, [locReq]))] := by
  intro e h
  simp only [List.mem_cons, List.not_mem_nil, or_false] at h
  rcases h with rfl | rfl | rfl <;> decide

theorem witness_BlockSizeIsFixedAtElaboration :
    elaborate 2 = some n2 ∧ elaborate 1 = none ∧ elaborate 0 = none ∧ elaborate 12 = none ∧
    step State.reset = .next State.reset := ⟨by decide, by decide, by decide, by decide, rfl⟩
theorem witness_ConfigurationErrorFailsFast : ¬ ∃ k, 1 ≤ k ∧ 1 = 2 ^ k := by
  rintro ⟨k, hk, h⟩
  have : 2 ^ 1 ≤ 2 ^ k := Nat.pow_le_pow_right (by decide) hk
  omega
theorem witness_PositionClassesPartition : 15 < BlockSize.reference.n ∧ n2.m = 1 ∧ n32.m = 5 := by decide
theorem witness_DataPositionsAscend :
    4 ≤ BlockSize.reference.m ∧ dpos 16 0 = some 3 ∧ dpos 16 10 = some 15 ∧ dpos 16 11 = none := by decide
/-- Two instances, of which the second has a request. -/
theorem witness_InstancesAreIndependent :
    (⟨[State.reset, hosting [.request corReq []]], by decide⟩ : Platform).instances[1]? =
      some (hosting [.request corReq []]) ∧
    step State.reset = .next State.reset ∧
    (∃ t, step (hosting [.request corReq []]) = .next t) ∧ 1 ≤ [State.reset].length := ⟨rfl, rfl, ⟨_, rfl⟩, by decide⟩
theorem witness_BlockOrderIsRestored :
    [(1, 21), (0, 11)].Perm ((tagBlocks [10, 20]).map fun p => (p.1, p.2 + 1)) := by decide
theorem witness_TextBecomesBitsMsbFirst : (∀ c ∈ [0x68, 255], c ≤ 255) ∧ ∃ c ∈ [256], 255 < c := by decide
theorem witness_AsciiInvertsBinary :
    toBinary [255] = .ok (List.replicate 8 true) ∧ toAscii (List.replicate 8 false) = .ok [0] := by decide
theorem witness_ChunkPlacesBitsAtDataPositions :
    1 ≤ n4.k ∧ [true] ≠ [] ∧ chunk 2 [true] = .ok [[.reserved, .reserved, .reserved, .data true]] := by decide
theorem witness_EncodeIsOneEncPerBlock :
    messageBlocks 4 [0x61] = .ok [0x1060#16] ∧ encodeBlocks 4 [0x61] = .ok [0x1177#16] ∧
    (hosting [.request 0x01060#18 []]).inbox =
      ([0x1060#16].map fun b : Block 4 => HostEvent.request (packed 0 b) []) := ⟨rfl, rfl, rfl⟩
theorem witness_EndToEndResult :
    1 ≤ n4.k ∧ (∀ c ∈ [0x61], c ≤ 255) ∧ List.Forall₂ atMostOneFlip [sent] [received] :=
  ⟨by decide, by decide, .cons (.inr ⟨10, by decide, by decide⟩) .nil⟩
theorem witness_JoinInvertsChunkUpToPadding : 1 ≤ n8.k := by decide
theorem witness_AssembledWordIsPacked : assemble 1 "COR 0x3".toList = .ok 0xF#4 := by decide
/-- A literal at the width of N = 4, one just over it, and a comment. -/
theorem witness_HexLiteralAssembles :
    [0, 15] ≠ [] ∧ (∀ d ∈ [0, 15], d < 16) ∧ LineEnd " ; x".toList ∧
    (0xF#4 : Block 2).toNat = hexValue [0, 15] ∧ 2 ^ 2 ^ 2 ≤ hexValue [1, 0] :=
  ⟨by decide, by decide, .inr ⟨[' ', 'x'], by decide⟩, by decide, by decide⟩
/-- P4 line 1, `ENC "rrr1"`: legal; one character short; the same under COR, and an r at the data position 3. -/
theorem witness_QuotedBlockAssembles :
    LineEnd [] ∧ "rrr1".toList.length = 2 ^ 2 ∧ "rrr".toList.length ≠ 2 ^ 2 ∧
    (∀ j c, "rrr1".toList[j]? = some c → QuotedCharFits (opcode (.enc 0)) j c) ∧
    opcode (.cor 0) ≠ 0b00#2 ∧ DataIndex "000".toList.length := by
  refine ⟨.inl rfl, by decide, by decide, fun j c h => ?_, by decide, by decide, fun k h => ?_⟩
  · have e : "rrr1".toList = ['r', 'r', 'r', '1'] := by decide
    have hparity : ∀ i < 3, ¬ DataIndex i := by
      rintro i hi ⟨h0, hk⟩
      interval_cases i
      · exact h0 rfl
      · exact hk 0 rfl
      · exact hk 1 rfl
    rw [e] at h
    match j, h with
    | 0, h => cases h; exact .inr (.inr ⟨rfl, rfl, hparity 0 (by decide)⟩)
    | 1, h => cases h; exact .inr (.inr ⟨rfl, rfl, hparity 1 (by decide)⟩)
    | 2, h => cases h; exact .inr (.inr ⟨rfl, rfl, hparity 2 (by decide)⟩)
    | 3, h => cases h; exact .inr (.inl rfl)
    | j + 4, h => cases h
  · have h3 : "000".toList.length = 3 := by decide
    have : isPow2 3 = false := by decide
    rw [h3] at h
    rw [h, isPow2, Nat.log2_two_pow, beq_self_eq_true] at this
    cases this

theorem witness_StatusArithmeticStaysInRange : ∀ i ∈ [1, 2, 15], i < 2 ^ 4 := by decide

end Sys2Proof.Tests
end

section
/-! Proofs of the statements on scope (spec/00_scope.md): the block size N (R4), the position classes
(R5, R7) and the data positions in order (R8). -/

namespace Sys2Proof.Machine

open Sys2Proof.Claims

/-! The block size (R4). -/

/-- No event of the host changes N. -/
theorem step_keeps_size {s t : State} (h : step s = .next t) : t.size = s.size := by
  rcases step_cases s with ⟨-, hs⟩ | ⟨_, _, -, -, hs⟩ | ⟨_, _, _, -, -, hs⟩ | ⟨_, _, -, -, hs⟩ <;>
    rw [hs] at h <;> cases h <;> rfl

theorem exists_elaborate_iff (n : Nat) :
    (∃ z, elaborate n = some z ∧ z.n = n) ↔ ∃ k, 1 ≤ k ∧ n = 2 ^ k := by
  constructor
  · rintro ⟨z, -, hz⟩
    exact ⟨z.m, z.pos, hz.symm⟩
  · rintro ⟨k, hk, rfl⟩
    exact ⟨⟨k, hk⟩, (elaborate_eq_some _ _).2 rfl, rfl⟩

/-- Settles O41: elaboration by its two laws, the steps by the case analysis of `step_cases`. -/
theorem blockSizeIsFixedAtElaboration : Obligations.BlockSizeIsFixedAtElaboration :=
  ⟨exists_elaborate_iff, elaborate_eq_none, fun _ _ => step_keeps_size⟩

/-! The position classes (R5, R7). -/

theorem mem_dataPositions_iff_dataIndex (n i : Nat) : i ∈ dataPositions n ↔ i < n ∧ DataIndex i := by
  rw [mem_dataPositions, isParityPosition_eq_false, DataIndex]

theorem zero_notMem_parityPositions (m : Nat) : 0 ∉ parityPositions m := by
  rw [mem_parityPositions]
  rintro ⟨k, -, h⟩
  exact (Nat.two_pow_pos k).ne h

/-- Below N, every power of two is an individual parity position. -/
theorem mem_parityPositions_of_lt {m i : Nat} (hi : i < 2 ^ m) :
    i ∈ parityPositions m ↔ ∃ k, i = 2 ^ k := by
  rw [mem_parityPositions]
  constructor
  · rintro ⟨k, -, hk⟩
    exact ⟨k, hk⟩
  · rintro ⟨k, rfl⟩
    exact ⟨k, (two_pow_lt_iff k m).1 hi, rfl⟩

/-- The three classes {0}, P and D partition the indices of a block. -/
theorem position_class_cases {m i : Nat} (hi : i < 2 ^ m) :
    (i = 0 ∧ i ∉ parityPositions m ∧ i ∉ dataPositions (2 ^ m)) ∨
    (i ≠ 0 ∧ i ∈ parityPositions m ∧ i ∉ dataPositions (2 ^ m)) ∨
    (i ≠ 0 ∧ i ∉ parityPositions m ∧ i ∈ dataPositions (2 ^ m)) := by
  have hD := mem_dataPositions_iff_dataIndex (2 ^ m) i
  have hP := mem_parityPositions_of_lt hi
  by_cases h0 : i = 0
  · refine .inl ⟨h0, h0 ▸ zero_notMem_parityPositions m, fun h => ?_⟩
    obtain ⟨-, hne, -⟩ := hD.1 h
    exact hne h0
  by_cases hk : ∃ k, i = 2 ^ k
  · refine .inr (.inl ⟨h0, hP.2 hk, fun h => ?_⟩)
    obtain ⟨-, -, hne⟩ := hD.1 h
    exact not_exists.2 hne hk
  · exact .inr (.inr ⟨h0, fun h => hk (hP.1 h), hD.2 ⟨hi, h0, not_exists.1 hk⟩⟩)

theorem nodup_parityPositions (m : Nat) : (parityPositions m).Nodup :=
  List.nodup_range.map (Nat.pow_right_injective (le_refl 2))

theorem length_parityPositions (m : Nat) : (parityPositions m).length = m := by
  simp [parityPositions]

theorem k_of_m {z : BlockSize} {m : Nat} (h : z.m = m) : z.k = 2 ^ m - m - 1 := by
  rw [BlockSize.k, BlockSize.n, h]

/-- Settles O43: the partition by its three cases, each class by its membership lemma and its length. -/
theorem positionClassesPartition : Obligations.PositionClassesPartition := by
  refine ⟨fun _ _ => position_class_cases, fun z => ⟨mem_parityPositions z.m, fun i => ?_,
    nodup_parityPositions z.m, length_parityPositions z.m, (dataPositions_pairwise z.n).nodup,
    length_dataPositions z.m⟩, by decide, by decide, fun z => ⟨rfl, k_of_m, k_of_m, k_of_m, k_of_m, k_of_m, k_of_m⟩⟩
  rw [mem_dataPositions_iff_dataIndex, DataIndex, Nat.one_le_iff_ne_zero, and_left_comm]

/-! The data positions in order (R8). -/

theorem exists_dpos_iff_lt (n j : Nat) : (∃ i, dpos n j = some i) ↔ j < (dataPositions n).length := by
  rw [dpos, ← Option.isSome_iff_exists, isSome_getElem?]

theorem exists_dpos_eq_iff (n i : Nat) : (∃ j, dpos n j = some i) ↔ i < n ∧ DataIndex i := by
  rw [← mem_dataPositions_iff_dataIndex, List.mem_iff_getElem?]
  rfl

theorem dpos_strictMono {n j j' i i' : Nat} (hj : j < j') (h : dpos n j = some i)
    (h' : dpos n j' = some i') : i < i' := by
  obtain ⟨hlt, rfl⟩ := List.getElem?_eq_some_iff.1 h
  obtain ⟨hlt', rfl⟩ := List.getElem?_eq_some_iff.1 h'
  exact List.pairwise_iff_getElem.1 (dataPositions_pairwise n) j j' hlt hlt' hj

/-- A longer block only adds data positions above those of a shorter one. -/
theorem dataPositions_add (n r : Nat) : dataPositions (n + r) =
    dataPositions n ++ ((List.range r).map (n + ·)).filter fun i => !isParityPosition i := by
  rw [dataPositions, List.range_add, List.filter_append, dataPositions]

theorem dpos_of_le {n n' j i : Nat} (h : n ≤ n') (hj : dpos n j = some i) : dpos n' j = some i := by
  obtain ⟨r, rfl⟩ := Nat.exists_eq_add_of_le h
  obtain ⟨hlt, -⟩ := List.getElem?_eq_some_iff.1 hj
  rw [dpos, dataPositions_add, List.getElem?_append_left hlt]
  exact hj

/-- Settles O44: dpos reads the ascending list of data positions; its first values are those of N = 16, which every
larger N keeps. -/
theorem dataPositionsAscend : Obligations.DataPositionsAscend := by
  refine fun z => ⟨fun j => ?_, exists_dpos_eq_iff z.n, fun _ _ _ _ => dpos_strictMono, fun hm => ?_⟩
  · rw [exists_dpos_iff_lt, length_dataPositions, BlockSize.k]
  · have hn : 2 ^ 4 ≤ z.n := Nat.pow_le_pow_right (by decide) hm
    have hd (j i : Nat) (h : dpos 16 j = some i) : dpos z.n j = some i := dpos_of_le hn h
    calc (List.range 5).map (dpos z.n)
      _ = [dpos z.n 0, dpos z.n 1, dpos z.n 2, dpos z.n 3, dpos z.n 4] := rfl
      _ = [some 3, some 5, some 6, some 7, some 9] := by
        rw [hd 0 3 (by decide), hd 1 5 (by decide), hd 2 6 (by decide), hd 3 7 (by decide), hd 4 9 (by decide)]

end Sys2Proof.Machine
end

section
/-! Proofs of the statements on requests and responses (spec/30_encoding.md): the fields of a request word (R30, R31),
the op values (R32), the response table (R33), the status ports (R34, R35, R58) and the legality of every word
(R37). -/

namespace Sys2Proof.Machine

open Sys2Proof.Claims

/-! The fields of a request word (R30, R31). -/

theorem getLsbD_opField {m j : Nat} (w : Req m) (hj : j < 2) : (opField w).getLsbD j = w.getLsbD (2 ^ m + j) := by
  rw [opField, BitVec.getLsbD_extractLsb', decide_eq_true hj, Bool.true_and]

theorem getLsbD_blkField {m i : Nat} (w : Req m) (hi : i < 2 ^ m) : (blkField w).getLsbD i = w.getLsbD i := by
  rw [blkField, BitVec.getLsbD_extractLsb', decide_eq_true hi, Bool.true_and, Nat.zero_add]

theorem sum_testBit_mul_two_pow (n v : Nat) :
    ∑ i ∈ Finset.range n, (v.testBit i).toNat * 2 ^ i = v % 2 ^ n := by
  induction n with
  | zero => rw [Finset.sum_range_zero, Nat.pow_zero, Nat.mod_one]
  | succ n ih => rw [Finset.sum_range_succ, ih, Nat.toNat_testBit, Nat.mod_pow_succ, Nat.mul_comm]

/-- The bus value of a block (30_encoding.md R31). -/
theorem toNat_eq_sum_bits {m : Nat} (b : Block m) :
    b.toNat = ∑ i ∈ Finset.range (2 ^ m), (b.getLsbD i).toNat * 2 ^ i :=
  calc b.toNat
    _ = b.toNat % 2 ^ 2 ^ m := (Nat.mod_eq_of_lt b.isLt).symm
    _ = ∑ i ∈ Finset.range (2 ^ m), (b.toNat.testBit i).toNat * 2 ^ i := (sum_testBit_mul_two_pow _ _).symm

/-- Settles O2: decoding takes a word's two fields as they are, and each field is a run of the word's bits. -/
theorem requestFieldsByPosition : Obligations.RequestFieldsByPosition := by
  refine ⟨fun m w => ?_, by decide⟩
  rw [opcode_decodeReq, blk_decodeReq]
  refine ⟨fun j => getLsbD_opField w, fun i => getLsbD_blkField w, ?_, toNat_eq_fields w⟩
  rw [toNat_eq_sum_bits]
  refine Finset.sum_congr rfl fun i hi => ?_
  rw [getLsbD_blkField w (Finset.mem_range.1 hi)]

/-! Decoding and encoding (R32, R37). -/

/-- Decoding gives an encoded operation back. -/
theorem decodeReq_encode {m : Nat} {i : Instr} (h : i.wellFormed m = true) : decodeReq (encode m i) = i := by
  rw [decodeReq, opField_encode, toNat_blkField_encode, Nat.mod_eq_of_lt ((wellFormed_iff m i).1 h), instrOfOp_opcode]

/-- Encoding gives a decoded request word back. -/
theorem encode_decodeReq {m : Nat} (w : Req m) : encode m (decodeReq w) = w := by
  apply BitVec.eq_of_toNat_eq
  rw [toNat_encode, Nat.mod_eq_of_lt (blk_decodeReq_lt w), opcode_decodeReq, blk_decodeReq, ← toNat_eq_fields]

theorem wellFormed_decodeReq {m : Nat} (w : Req m) : (decodeReq w).wellFormed m = true :=
  (wellFormed_iff m _).2 (blk_decodeReq_lt w)

theorem wellFormed_instrOfOp {m : Nat} (op : OpWord) (b : Block m) : (instrOfOp op b.toNat).wellFormed m = true := by
  rw [wellFormed_iff, blk_instrOfOp]
  exact b.isLt

/-- The packed word of R30 is the encoder's word. -/
theorem packed_eq_reqOf {m : Nat} (op : OpWord) (b : Block m) : packed op.toNat b = reqOf op b := by
  have h : (reqOf op b).toNat = op.toNat * 2 ^ 2 ^ m + b.toNat := by
    rw [reqOf, toNat_encode, opcode_instrOfOp, blk_instrOfOp, Nat.mod_eq_of_lt b.isLt]
  rw [packed, ← h, BitVec.ofNat_toNat, BitVec.setWidth_eq]

theorem decodeReq_packed {m : Nat} (op : OpWord) (b : Block m) :
    decodeReq (packed op.toNat b) = instrOfOp op b.toNat := by
  rw [packed_eq_reqOf]
  exact decodeReq_encode (wellFormed_instrOfOp op b)

/-- Settles O3: the packed word is the encoder's, and decoding undoes the encoder. -/
theorem opValueSelectsOperation : Obligations.OpValueSelectsOperation :=
  fun _ b =>
    ⟨decodeReq_packed 0b00#2 b, decodeReq_packed 0b01#2 b, decodeReq_packed 0b10#2 b, decodeReq_packed 0b11#2 b⟩

/-- Settles O4: a number that N+2 bits hold is a request word, and the encoder undoes decoding. -/
theorem everyRequestWordIsLegal : Obligations.EveryRequestWordIsLegal := by
  refine fun m w hw => ⟨decodeReq (BitVec.ofNat (2 ^ m + 2) w), if_pos hw, wellFormed_decodeReq _, ?_⟩
  rw [encode_decodeReq, BitVec.toNat_ofNat, Nat.mod_eq_of_lt hw]

/-! The status ports (R34, R35, R58). -/

/-- LOC and its word: no error, or a located index, which the word carries as it is. -/
theorem locWord_cases {m : Nat} (b : Block m) :
    (locate b = -1 ∧ locWord b = BitVec.allOnes (m + 1)) ∨
      ∃ l : Nat, locate b = l ∧ l < 2 ^ m ∧ (locWord b).toNat = l ∧ (locWord b).getLsbD m = false ∧
        corBlock b = flipBit b l := by
  obtain h | ⟨l, hl, h⟩ := locate_range b
  · exact .inl ⟨h, locWord_of_noError h⟩
  · exact .inr ⟨l, h, hl, toNat_locWord_of_locate h hl,
      (locWord b).msb_eq_getLsbD_last.symm.trans (msb_locWord_of_locate h hl), corBlock_of_locate h⟩

/-- The top bit of `loc` says "no error located" (30_encoding.md R34). -/
theorem getLsbD_locWord_iff {m : Nat} (b : Block m) : (locWord b).getLsbD m = true ↔ locate b = -1 := by
  obtain ⟨h, hw⟩ | ⟨l, h, -, -, hbit, -⟩ := locWord_cases b
  · simp [hw, h]
  · rw [hbit, h]
    exact iff_of_false Bool.false_ne_true (by omega)

/-- Settles O22: the range of SYN, and the two cases of LOC and its word. -/
theorem statusPortEncodings : Obligations.StatusPortEncodings :=
  ⟨fun _ b => ⟨toNat_synWord b, syndrome_lt b, locWord_cases b, getLsbD_locWord_iff b⟩,
    enc2c_neg_one 2, enc2c_neg_one 3, enc2c_neg_one 4, enc2c_neg_one 5, enc2c_neg_one 6⟩

/-! The response table (R33). -/

theorem resp_enc {m : Nat} (b : Block m) : resp 0b00#2 b = ⟨encBlock b, 0, enc2c (m + 1) (-1)⟩ := by
  rw [enc2c_neg_one]
  rfl

theorem resp_syn {m : Nat} (b : Block m) : resp 0b01#2 b = ⟨0, synWord b, enc2c (m + 1) (-1)⟩ := by
  rw [enc2c_neg_one]
  rfl

theorem resp_loc {m : Nat} (b : Block m) : resp 0b10#2 b = ⟨0, synWord b, locWord b⟩ := rfl

theorem resp_cor {m : Nat} (b : Block m) : resp 0b11#2 b = ⟨corBlock b, synWord b, locWord b⟩ := rfl

/-- Running a request word of a given op changes the state by that row of the table alone. -/
theorem exec_decodeReq_of_opField {s : State} {w : Req s.m} {op : OpWord} (h : opField w = op) :
    exec (decodeReq w) s = .next (after s (resp op (blkField w))) := by
  rw [exec_decodeReq_eq, respReq, h]
  rfl

/-- Settles O11: each op value picks its row of RESP. -/
theorem responseTableOfEveryOp : Obligations.ResponseTableOfEveryOp := by
  refine fun s w => ⟨fun h => ?enc, fun h => ?syn, fun h => ?loc, fun h => ?cor⟩
  case enc => rw [exec_decodeReq_of_opField h, resp_enc]
  case syn =>
    rw [exec_decodeReq_of_opField h, resp_syn]
    rfl
  case loc => exact exec_decodeReq_of_opField h
  case cor => exact exec_decodeReq_of_opField h

end Sys2Proof.Machine
end

section
/-! Proofs of the statements on ENC (spec/40_encoder.md): its response (R41), the reserved positions (R42, R43), the
laws of a codeword (R44), linearity (R45) and the corner cases by block size (R46). -/

namespace Sys2Proof.Machine

open Sys2Proof.Claims

variable {m : Nat}

/-! Data positions in the statements' vocabulary (R7). -/

theorem dataIndex_iff (i : Nat) : DataIndex i ↔ isParityPosition i = false := (isParityPosition_eq_false i).symm

theorem not_dataIndex_of_lt_two {i : Nat} (hi : i < 2 ^ 1) : ¬ DataIndex i := fun h => by
  have hmem : i ∈ dataPositions (2 ^ 1) := (mem_dataPositions_iff_dataIndex _ _).2 ⟨hi, h⟩
  rw [show dataPositions (2 ^ 1) = [] by decide] at hmem
  exact List.not_mem_nil hmem

theorem eq_three_of_dataIndex {i : Nat} (hi : i < 2 ^ 2) (h : DataIndex i) : i = 3 := by
  have hmem : i ∈ dataPositions (2 ^ 2) := (mem_dataPositions_iff_dataIndex _ _).2 ⟨hi, h⟩
  rw [show dataPositions (2 ^ 2) = [3] by decide] at hmem
  exact List.mem_singleton.1 hmem

/-- Two blocks carry the same data bits. -/
def SameData (a b : Block m) : Prop := ∀ i < 2 ^ m, DataIndex i → a.getLsbD i = b.getLsbD i

theorem encBlock_of_sameData {a b : Block m} (h : SameData a b) : encBlock a = encBlock b :=
  encBlock_congr fun i hi hp => h i hi ((dataIndex_iff i).2 hp)

theorem parBit_of_sameData {a b : Block m} (h : SameData a b) (k : Nat) : parBit a (2 ^ k) = parBit b (2 ^ k) :=
  parBit_congr k fun i hi hp => h i hi ((dataIndex_iff i).2 hp)

theorem sameData_encBlock (b : Block m) : SameData (encBlock b) b :=
  fun i hi hd => encBlock_data b hi ((dataIndex_iff i).1 hd)

theorem sameData_zero {b : Block m} (h : ∀ i < 2 ^ m, DataIndex i → b.getLsbD i = false) : SameData b 0 :=
  fun i hi hd => (h i hi hd).trans BitVec.getLsbD_zero.symm

theorem sameData_allOnes {b : Block m} (h : ∀ i < 2 ^ m, DataIndex i → b.getLsbD i = true) :
    SameData b (BitVec.allOnes (2 ^ m)) :=
  fun i hi hd => (h i hi hd).trans (getLsbD_allOnes hi).symm

/-! The modulo-2 sums of R40 and R41. -/

/-- An XOR over the bits at the indices with a property counts the ones among them modulo 2. -/
theorem xorBits_eq_oddly (b : Block m) (p : Nat → Prop) [DecidablePred p] :
    xorBits (2 ^ m) (fun i => decide (p i) && b.getLsbD i) = oddly ((ones b).filter p) := by
  rw [xorBits_eq_card, oddly, ones, Finset.filter_filter]
  simp only [Bool.and_eq_true, decide_eq_true_eq, and_comm]

theorem parBit_eq_oddly (b : Block m) (k : Nat) :
    parBit b (2 ^ k) = oddly ((ones b).filter fun i => i ≠ 2 ^ k ∧ i &&& 2 ^ k ≠ 0) := by
  rw [← xorBits_eq_oddly, parBit]
  refine xorBits_congr fun i _ => ?_
  simp [bne, Bool.beq_eq_decide_eq]

theorem encBlock_zero_eq_oddly (b : Block m) :
    (encBlock b).getLsbD 0 = oddly ((ones (encBlock b)).filter fun i => 1 ≤ i) := by
  rw [← xorBits_eq_oddly, encBlock_zero]
  refine xorBits_congr fun i _ => ?_
  cases i <;> simp

theorem card_ones_mod_two (b : Block m) : (ones b).card % 2 = overallParity b := by
  rw [overallParity, popcount, countBits_eq_card, ones]

/-! Responses (R33, R41, R44). -/

theorem exec_enc (s : State) (b : Block s.m) :
    exec (.enc b.toNat) s = .next (after s ⟨encBlock b, 0, BitVec.allOnes (s.m + 1)⟩) := execEnc_toNat s b

theorem exec_syn (s : State) (b : Block s.m) :
    exec (.syn b.toNat) s = .next (after s ⟨0, synWord b, BitVec.allOnes (s.m + 1)⟩) := execSyn_toNat s b

theorem exec_loc (s : State) (b : Block s.m) :
    exec (.loc b.toNat) s = .next (after s ⟨0, synWord b, locWord b⟩) := execLoc_toNat s b

theorem exec_cor (s : State) (b : Block s.m) :
    exec (.cor b.toNat) s = .next (after s ⟨corBlock b, synWord b, locWord b⟩) := execCor_toNat s b

theorem synWord_encBlock (b : Block m) : synWord (encBlock b) = 0 := by
  rw [synWord, syndrome_encBlock]
  rfl

theorem locWord_encBlock (b : Block m) : locWord (encBlock b) = BitVec.allOnes (m + 1) :=
  locWord_of_noError (locate_encBlock b)

/-- What the four operations answer to a codeword (40_encoder.md R44). -/
theorem exec_encBlock (s : State) (b : Block s.m) :
    exec (.syn (encBlock b).toNat) s = .next (after s ⟨0, 0, BitVec.allOnes (s.m + 1)⟩) ∧
    exec (.loc (encBlock b).toNat) s = .next (after s ⟨0, 0, BitVec.allOnes (s.m + 1)⟩) ∧
    exec (.enc (encBlock b).toNat) s = .next (after s ⟨encBlock b, 0, BitVec.allOnes (s.m + 1)⟩) ∧
    exec (.cor (encBlock b).toNat) s = .next (after s ⟨encBlock b, 0, BitVec.allOnes (s.m + 1)⟩) := by
  rw [exec_syn, exec_loc, exec_enc, exec_cor, synWord_encBlock, locWord_encBlock, encBlock_encBlock, corBlock_encBlock]
  exact ⟨rfl, rfl, rfl, rfl⟩

/-- Settles O17: the laws of a codeword, read off the ports of each operation. -/
theorem codewordLaws : Obligations.CodewordLaws := by
  refine fun s b => ⟨encBlock b, exec_enc s b, ?_, fun ports inbox delivered => ?_⟩
  · rw [card_ones_mod_two, overallParity_encBlock]
  · exact exec_encBlock ⟨s.size, ports, inbox, delivered⟩ b

/-! Corner cases (R41, R46). -/

theorem encBlock_of_zero_data {b : Block m} (h : ∀ i < 2 ^ m, DataIndex i → b.getLsbD i = false) : encBlock b = 0 := by
  rw [encBlock_of_sameData (sameData_zero h), encBlock_zero_block]

theorem encBlock_of_ones_data (hm : 2 ≤ m) {b : Block m} (h : ∀ i < 2 ^ m, DataIndex i → b.getLsbD i = true) :
    encBlock b = BitVec.allOnes (2 ^ m) := by
  rw [encBlock_of_sameData (sameData_allOnes h), encBlock_allOnes hm]

theorem encBlock_of_m_eq_one (hm : m = 1) (b : Block m) : encBlock b = 0 := by
  subst hm
  exact encBlock_of_zero_data fun i hi hd => absurd hd (not_dataIndex_of_lt_two hi)

/-- The first block of "hello" at N = 16 (95_test_vectors.md W1). -/
theorem encBlock_hello (hm : m = 4) (b : Block m) (hb : b.toNat = 0xC260) : (encBlock b).toNat = 0xC366 := by
  subst hm
  have hb' : b = 0xC260#16 := BitVec.eq_of_toNat_eq hb
  rw [hb']
  decide

/-- Settles O7: each bit of ENC by its law; the corner cases follow because ENC depends on the data bits alone. -/
theorem encComputesEveryParityBit : Obligations.EncComputesEveryParityBit := by
  refine fun s b => ⟨decodeReq_packed 0b00#2 b, encBlock b, exec_enc s b, sameData_encBlock b, fun k hk => ?parity,
    encBlock_zero_eq_oddly b, encBlock_of_zero_data, fun hm => encBlock_of_ones_data hm,
    fun hm => encBlock_of_m_eq_one hm b, beq_iff_eq.1, fun b' h => ?reserved, fun hm => encBlock_hello hm b⟩
  case parity => rw [encBlock_pow b hk, parBit_eq_oddly]
  case reserved => rw [exec_enc, exec_enc, encBlock_of_sameData h]

/-! The reserved positions (R42, R43). -/

/-- The loop of ENC puts PARBIT at the individual parity positions and leaves the rest. -/
theorem getLsbD_placeParities (b : Block m) {i : Nat} (hi : i < 2 ^ m) :
    (placeParities b m).getLsbD i = if i ∈ parityPositions m then parBit b i else b.getLsbD i := by
  split
  case isTrue h =>
    obtain ⟨k, hk, rfl⟩ := (mem_parityPositions m i).1 h
    exact placeParities_pow b hk hk
  case isFalse h => exact placeParities_other b hi (fun k hk => h ((mem_parityPositions_of_lt hi).2 ⟨k, hk⟩)) m

/-- Filling the parity positions one by one, in any order, is the loop of ENC (40_encoder.md R42). -/
theorem fillParities_eq_placeParities (b : Block m) {order : List Nat} (h : order.Perm (parityPositions m)) :
    order.foldl (fun c p => setIndex c p (parBit c p)) b = placeParities b m := by
  have hpow : ∀ p ∈ order, ∃ k < m, p = 2 ^ k := fun p hp => (mem_parityPositions m p).1 (h.mem_iff.1 hp)
  refine block_ext fun i hi => ?_
  rw [getLsbD_fillParities b order hpow b (fun _ _ _ => rfl) i hi, getLsbD_placeParities b hi]
  simp only [h.mem_iff]

/-- Settles O15: ENC and PARBIT depend on the data bits alone, and so does each step of a filling in any order. -/
theorem encIgnoresReservedPositions : Obligations.EncIgnoresReservedPositions := by
  refine ⟨fun s a b h => ⟨?_, fun k _ => parBit_of_sameData h k⟩, fun _ b _ h => fillParities_eq_placeParities b h⟩
  rw [exec_enc, exec_enc, encBlock_of_sameData h]

/-- Settles O16: the data positions are copied, and an index that is no data position is 0 or in P. -/
theorem encKeepsDataPositions : Obligations.EncKeepsDataPositions := by
  intro m b i hi
  have hdata (h : i ∈ dataPositions (2 ^ m)) : (encBlock b).getLsbD i = b.getLsbD i :=
    encBlock_data b hi ((mem_dataPositions _ _).1 h).2
  refine ⟨hdata, fun hne => ?_⟩
  obtain ⟨h0, -, -⟩ | ⟨-, hp, -⟩ | ⟨-, -, hd⟩ := position_class_cases hi
  · exact .inl h0
  · exact .inr hp
  · exact absurd (hdata hd) hne

/-! Linearity (R45). -/

/-- Adding unit blocks with distinct indices to c inverts exactly the bits at those indices. -/
theorem getLsbD_foldl_unitBlock {is : List Nat} (hn : is.Nodup) (c : Block m) {j : Nat} (hj : j < 2 ^ m) :
    (is.foldl (fun c i => c ^^^ unitBlock i) c).getLsbD j = (c.getLsbD j).xor (decide (j ∈ is)) := by
  induction is generalizing c with
  | nil => simp
  | cons i is ih =>
    obtain ⟨hi, hn⟩ := List.nodup_cons.1 hn
    rw [List.foldl_cons, ih hn, BitVec.getLsbD_xor, getLsbD_unitBlock hj]
    by_cases hij : i = j
    · subst hij
      simp [hi]
    · simp [hij, Ne.symm hij]

/-- A block has the data bits of the sum of the unit blocks of its data bits. -/
theorem sameData_sum_unitBlock (b : Block m) : SameData b
    (((dataPositions (2 ^ m)).filter fun i => b.getLsbD i).foldl (fun c i => c ^^^ unitBlock i) 0) := by
  intro j hj hd
  have hmem : j ∈ dataPositions (2 ^ m) := (mem_dataPositions_iff_dataIndex _ _).2 ⟨hj, hd⟩
  rw [getLsbD_foldl_unitBlock ((dataPositions_pairwise _).nodup.filter _) _ hj]
  simp [hmem]

theorem encBlock_foldl_unitBlock (is : List Nat) (c : Block m) :
    encBlock (is.foldl (fun c i => c ^^^ unitBlock i) c) =
      is.foldl (fun c i => c ^^^ encBlock (unitBlock i)) (encBlock c) :=
  (List.foldl_hom encBlock fun c i => (encBlock_xor c (unitBlock i)).symm).symm

/-- A codeword is the sum of the codewords of its single data bits (40_encoder.md R45). -/
theorem encBlock_eq_sum_unitBlock (b : Block m) : encBlock b =
    ((dataPositions (2 ^ m)).filter fun i => b.getLsbD i).foldl (fun c i => c ^^^ encBlock (unitBlock i)) 0 := by
  rw [encBlock_of_sameData (sameData_sum_unitBlock b), encBlock_foldl_unitBlock, encBlock_zero_block]

/-- Settles O18: ENC is a homomorphism for the sum of blocks, and the sum of unit blocks of b's data bits has b's
data bits. -/
theorem encIsLinear : Obligations.EncIsLinear :=
  ⟨fun _ => encBlock_xor, fun _ => encBlock_zero_block, fun _ => encBlock_eq_sum_unitBlock, by decide⟩

/-! Block sizes (R46). -/

/-- A PARBIT covers one index less than half of the block. -/
theorem card_parBit_cover {k : Nat} (hk : k < m) :
    ((Finset.range (2 ^ m)).filter fun i => i ≠ 2 ^ k ∧ i &&& 2 ^ k ≠ 0).card = 2 ^ m / 2 - 1 := by
  have hset : ((Finset.range (2 ^ m)).filter fun i => i ≠ 2 ^ k ∧ i &&& 2 ^ k ≠ 0) =
      ((Finset.range (2 ^ m)).filter fun i => i.testBit k = true).erase (2 ^ k) := by
    ext i
    simp only [Finset.mem_erase, Finset.mem_filter, ← land_two_pow_ne_zero, bne_iff_ne]
    exact and_left_comm
  have hmem : 2 ^ k ∈ (Finset.range (2 ^ m)).filter fun i => i.testBit k = true :=
    Finset.mem_filter.2 ⟨Finset.mem_range.2 ((two_pow_lt_iff k m).2 hk), Nat.testBit_two_pow_self⟩
  rw [hset, Finset.card_erase_of_mem hmem, card_testBit hk]

theorem encBlock_of_m_two (b : Block 2) : encBlock b = if b.getLsbD 3 = true then 0xF else 0x0 := by
  split
  case isTrue h => exact encBlock_of_ones_data (le_refl 2) fun i hi hd => eq_three_of_dataIndex hi hd ▸ h
  case isFalse h =>
    exact encBlock_of_zero_data fun i hi hd => eq_three_of_dataIndex hi hd ▸ Bool.eq_false_iff.2 h

/-- Settles O19: N = 2 has no data index and N = 4 only index 3; all-ones data has the PARBITs and the codeword of the
all-ones block. -/
theorem encCornerCasesByBlockSize : Obligations.EncCornerCasesByBlockSize := by
  refine ⟨⟨by decide, fun b => ⟨rfl, encBlock_of_m_eq_one rfl b⟩⟩, encBlock_of_m_two, fun m b hm h =>
    ⟨fun k hk => ⟨card_parBit_cover hk, ?_⟩, encBlock_of_ones_data hm h⟩⟩
  rw [parBit_of_sameData (sameData_allOnes h), parBit_allOnes hm hk]

end Sys2Proof.Machine
end

section
/-! Proofs of the statements on SYN, PAR and LOC (spec/41_syndrome_locator.md): what they compute (R50, R51), the
responses (R53, R54), one flipped bit (R56) and any set of flipped bits (R57). -/

namespace Sys2Proof.Machine

open Sys2Proof.Claims

variable {m : Nat}

/-! SYN and PAR in the statements' vocabulary (R50, R51). -/

theorem syndrome_eq_xorAll (b : Block m) : syndrome b = xorAll (onesList b) := xorIndices_eq_foldl _ _

theorem testBit_syndrome_eq_oddly (b : Block m) (k : Nat) :
    (syndrome b).testBit k = oddly ((ones b).filter fun i => i.testBit k = true) := by
  rw [testBit_syndrome, ← xorBits_eq_oddly]
  simp only [Bool.decide_eq_true]

/-- Index 0 never contributes to the syndrome (41_syndrome_locator.md R50). -/
theorem syndrome_flipBit_zero (b : Block m) : syndrome (flipBit b 0) = syndrome b := by
  rw [syndrome_flipBit b (Nat.two_pow_pos m), Nat.xor_zero]

theorem setIndex_eq_self_or_flipBit (b : Block m) (i : Nat) (v : Bool) :
    setIndex b i v = b ∨ setIndex b i v = flipBit b i := ite_eq_or_eq _ _ _

theorem syndrome_setIndex_zero (b : Block m) (v : Bool) : syndrome (setIndex b 0 v) = syndrome b := by
  obtain h | h := setIndex_eq_self_or_flipBit b 0 v
  · rw [h]
  · rw [h, syndrome_flipBit_zero]

/-- Settles O20: SYN folds the list of ones, and each of its bits is an XOR over the block. -/
theorem syndromeIsXorOfSetIndices : Obligations.SyndromeIsXorOfSetIndices := fun _ b =>
  ⟨syndrome_eq_xorAll b, fun k _ => testBit_syndrome_eq_oddly b k, syndrome_setIndex_zero b, syndrome_zero_block,
    fun a => syndrome_xor a b⟩

/-- Settles O21: the count modulo 2, and the XOR of all bits as a fold over the indices. -/
theorem overallParityIsCountModTwo : Obligations.OverallParityIsCountModTwo := fun _ b =>
  ⟨(card_ones_mod_two b).symm, by rw [overallParity_eq, xorBits_eq_foldl]⟩

/-! The response words of SYN and LOC (R50, R52). -/

theorem isSyndrome_synWord (b : Block m) : IsSyndrome b (synWord b) := by
  refine ⟨(toNat_synWord b).trans (syndrome_eq_xorAll b), fun k _ => ?_⟩
  rw [← BitVec.testBit_toNat, toNat_synWord, testBit_syndrome_eq_oddly]

/-- An odd number of ones whose indices cancel out locates index 0 (41_syndrome_locator.md R52). -/
theorem locate_of_odd {b : Block m} (hs : syndrome b = 0) (hp : overallParity b = 1) : locate b = (0 : Nat) := by
  rw [locate_of_syndrome_eq hs, if_pos hp, Int.natCast_zero]

/-- An even number of ones whose indices cancel out is no error (41_syndrome_locator.md R52). -/
theorem locate_of_even {b : Block m} (hs : syndrome b = 0) (hp : overallParity b = 0) : locate b = -1 := by
  rw [locate_of_syndrome_eq hs, hp, if_neg Nat.zero_ne_one]

theorem isLocation_locWord (b : Block m) : IsLocation b (synWord b) (locWord b) := by
  rw [IsLocation, toNat_synWord, card_ones_mod_two]
  refine ⟨fun hs => ?syndrome, fun hs hp => ?odd, fun hs hp => ?even⟩
  case syndrome => exact toNat_locWord_of_locate (locate_of_syndrome_ne hs) (syndrome_lt b)
  case odd => exact toNat_locWord_of_locate (locate_of_odd hs hp) (Nat.two_pow_pos m)
  case even => exact locWord_of_noError (locate_of_even hs hp)

/-! Codewords, with and without flipped bits (R44, R56, R57). -/

theorem syndrome_of_isCodeword {c : Block m} (hc : isCodeword c = true) : syndrome c = 0 := by
  obtain ⟨b, rfl⟩ := (isCodeword_iff c).1 hc
  exact syndrome_encBlock b

theorem overallParity_of_isCodeword {c : Block m} (hc : isCodeword c = true) : overallParity c = 0 := by
  obtain ⟨b, rfl⟩ := (isCodeword_iff c).1 hc
  exact overallParity_encBlock b

theorem locate_of_isCodeword {c : Block m} (hc : isCodeword c = true) : locate c = -1 :=
  locate_of_even (syndrome_of_isCodeword hc) (overallParity_of_isCodeword hc)

theorem isCodeword_zero : isCodeword (0 : Block m) = true := beq_iff_eq.2 encBlock_zero_block

theorem syndrome_codeword_xor {c : Block m} (hc : isCodeword c = true) (e : Block m) :
    syndrome (c ^^^ e) = syndrome e := by
  rw [syndrome_xor, syndrome_of_isCodeword hc, Nat.zero_xor]

theorem overallParity_codeword_xor {c : Block m} (hc : isCodeword c = true) (e : Block m) :
    overallParity (c ^^^ e) = overallParity e := by
  rw [overallParity_xor, overallParity_of_isCodeword hc, Nat.zero_add, Nat.mod_eq_of_lt (overallParity_lt e)]

/-- LOC sees only the flips of a codeword, not the codeword (41_syndrome_locator.md R57). -/
theorem locate_codeword_xor {c : Block m} (hc : isCodeword c = true) (e : Block m) :
    locate (c ^^^ e) = locate e := by
  rw [locate, locate, syndrome_codeword_xor hc, overallParity_codeword_xor hc]

theorem syndrome_flipBit_codeword {c : Block m} (hc : isCodeword c = true) {j : Nat} (hj : j < 2 ^ m) :
    syndrome (flipBit c j) = j := by
  rw [flipBit, syndrome_codeword_xor hc, syndrome_unitBlock hj]

/-- LOC names the one flipped index of a codeword (41_syndrome_locator.md R56). -/
theorem locate_flipBit_codeword {c : Block m} (hc : isCodeword c = true) {j : Nat} (hj : j < 2 ^ m) :
    locate (flipBit c j) = j := by
  obtain ⟨b, rfl⟩ := (isCodeword_iff c).1 hc
  exact locate_flipBit_encBlock b hj

/-- Settles O23: LOC's response to a codeword and to a codeword with one flipped bit. -/
theorem singleErrorIsLocated : Obligations.SingleErrorIsLocated := by
  refine fun s c hc => ⟨⟨synWord c, ?noError⟩, fun j hj => ⟨synWord (flipBit c j), ?syn, ?loc⟩⟩
  case noError => rw [exec_loc, locWord, locate_of_isCodeword hc]
  case syn => rw [toNat_synWord, syndrome_flipBit_codeword hc hj]
  case loc => rw [exec_loc, locWord_of_locate (locate_flipBit_codeword hc hj)]

/-! A set of flipped bits (R57). -/

theorem mem_ones {b : Block m} {i : Nat} (hi : i < 2 ^ m) : i ∈ ones b ↔ b.getLsbD i = true := by
  rw [ones, Finset.mem_filter, Finset.mem_range, and_iff_right hi]

/-- A block whose ones are at two indices is the sum of their unit blocks. -/
theorem eq_flipBit_unitBlock_of_ones {e : Block m} {i j : Nat} (hij : i ≠ j) (h : ones e = {i, j}) :
    e = flipBit (unitBlock i) j := by
  refine block_ext fun k hk => Bool.eq_iff_iff.2 ?_
  rw [← mem_ones hk, h, getLsbD_flipBit _ hk, getLsbD_unitBlock hk, Finset.mem_insert, Finset.mem_singleton]
  by_cases hi : i = k
  · simp [hi, hi ▸ hij.symm]
  · simp [hi, Ne.symm hi, eq_comm]

theorem syndrome_of_two_ones {e : Block m} {i j : Nat} (hi : i < 2 ^ m) (hj : j < 2 ^ m) (hij : i ≠ j)
    (h : ones e = {i, j}) : syndrome e = i ^^^ j := by
  rw [eq_flipBit_unitBlock_of_ones hij h, syndrome_flipBit _ hj, syndrome_unitBlock hi]

/-- Settles O24: LOC of the block is LOC of the flips; two flips have a non-zero syndrome, and any set of flips is one
of the three cases of R52. -/
theorem multipleErrorsFollowTheProcedure : Obligations.MultipleErrorsFollowTheProcedure := by
  intro m c e hc b
  have hloc : locate b = locate e := locate_codeword_xor hc e
  rw [hloc, ← syndrome_eq_xorAll, card_ones_mod_two]
  refine ⟨syndrome_codeword_xor hc e, overallParity_codeword_xor hc e, fun i j hi hj hij h => ?two,
    fun hp hs => locate_of_even hs hp, fun hp hs => locate_of_odd hs hp, locate_of_syndrome_ne⟩
  case two =>
    have hne : i ^^^ j ≠ 0 := mt Nat.xor_eq_zero_iff.1 hij
    have hs : syndrome e = i ^^^ j := syndrome_of_two_ones hi hj hij h
    have htwo : locate e = ((i ^^^ j : Nat) : Int) := hs ▸ locate_of_syndrome_ne (hs ▸ hne)
    refine ⟨hne, htwo, fun h0 => ?_, fun hi0 hj0 => ⟨fun h => hj0 ?_, fun h => hi0 ?_⟩⟩
    · rw [htwo, h0, Nat.zero_xor]
    · exact Nat.xor_right_injective (h.trans (Nat.xor_zero i).symm)
    · exact Nat.xor_left_injective (h.trans (Nat.zero_xor j).symm)

/-! Corner cases and worked examples (R53, R54). -/

theorem synWord_of_syndrome_eq_zero {b : Block m} (h : syndrome b = 0) : synWord b = 0 := by
  rw [synWord, h]
  rfl

theorem toNat_synWord_allOnes_of_m_eq_one (hm : m = 1) : (synWord (BitVec.allOnes (2 ^ m) : Block m)).toNat = 1 := by
  subst hm
  decide

/-- A property of the literal block with bus value v at N = 2^k holds of every block of that size and value. -/
theorem block_of_literal (P : ∀ {m : Nat}, Block m → Prop) {k v : Nat} (h : P (BitVec.ofNat (2 ^ k) v : Block k))
    {b : Block m} (hm : m = k) (hb : b.toNat = v) : P b := by
  subst hm
  rwa [← hb, BitVec.ofNat_toNat, BitVec.setWidth_eq] at h

/-- Settles O8: SYN answers the syndrome, which is 0 in each corner case but all ones at N = 2. -/
theorem synReportsTheSyndrome : Obligations.SynReportsTheSyndrome := by
  refine fun s b => ⟨decodeReq_packed 0b01#2 b, synWord b, exec_syn s b, isSyndrome_synWord b, fun hc => ?codeword,
    fun hm hb => ?allOnes, fun hm hb => ?allOnesAtTwo, fun c hc hb => ?flipZero,
    block_of_literal (fun b => (synWord b).toNat = 10) (by decide)⟩
  case codeword => exact synWord_of_syndrome_eq_zero (syndrome_of_isCodeword hc)
  case allOnes => rw [hb, synWord_of_syndrome_eq_zero (syndrome_allOnes hm)]
  case allOnesAtTwo => rw [hb, toNat_synWord_allOnes_of_m_eq_one hm]
  case flipZero =>
    rw [hb]
    exact synWord_of_syndrome_eq_zero (syndrome_flipBit_codeword hc (Nat.two_pow_pos _))

/-- Settles O9: LOC answers the syndrome and the located index; a codeword has none, and one flipped bit is named. -/
theorem locReportsTheLocation : Obligations.LocReportsTheLocation := by
  refine fun s b => ⟨decodeReq_packed 0b10#2 b, synWord b, locWord b, exec_loc s b, isSyndrome_synWord b,
    isLocation_locWord b, fun hc => ?codeword, fun c hc j hj hb => ?flip, fun hb => ?zero,
    block_of_literal (fun b => (locWord b).toNat = 1) (by decide),
    block_of_literal (fun b => (locWord b).toNat = 0x0A) (by decide),
    block_of_literal (fun b => (locWord b).toNat = 0) (by decide),
    block_of_literal (fun b => (locWord b).toNat = 0x1F) (by decide)⟩
  case codeword => exact locWord_of_noError (locate_of_isCodeword hc)
  case flip =>
    rw [hb]
    exact toNat_locWord_of_locate (locate_flipBit_codeword hc hj) hj
  case zero =>
    rw [hb]
    exact locWord_of_noError (locate_of_isCodeword isCodeword_zero)

end Sys2Proof.Machine
end

section
/-! Proofs of the statements on COR (spec/42_corrector.md): its response (R60, R61), a single flipped bit (R62, R63)
and a message, one transaction per block (R64). -/

namespace Sys2Proof.Machine

open Sys2Proof.Claims

variable {m : Nat}

/-! The flipped bit (R60). -/

/-- `loc` is all ones exactly where LOC names no index (30_encoding.md R34). -/
theorem locWord_eq_allOnes_iff (b : Block m) : locWord b = BitVec.allOnes (m + 1) ↔ locate b = -1 := by
  refine ⟨fun h => (getLsbD_locWord_iff b).1 ?_, locWord_of_noError⟩
  rw [h, BitVec.getLsbD_allOnes, decide_eq_true m.lt_succ_self]

/-- COR inverts the bit at the located index and no other. -/
theorem getLsbD_corBlock_of_locate {b : Block m} {l : Nat} (h : locate b = l) {i : Nat} (hi : i < 2 ^ m) :
    (corBlock b).getLsbD i = if i = l then !b.getLsbD i else b.getLsbD i := by
  rw [corBlock_of_locate h, getLsbD_flipBit b hi]
  by_cases hil : i = l
  · simp [hil]
  · simp [hil, Ne.symm hil]

/-- Where `loc` is not all ones, it carries the one index that COR inverts (42_corrector.md R61). -/
theorem getLsbD_corBlock_of_locWord_ne {b : Block m} (h : locWord b ≠ BitVec.allOnes (m + 1)) :
    (locWord b).toNat < 2 ^ m ∧ ∀ i < 2 ^ m,
      (corBlock b).getLsbD i = if i = (locWord b).toNat then !b.getLsbD i else b.getLsbD i := by
  obtain ⟨-, hw⟩ | ⟨l, hloc, hl, hw, -, -⟩ := locWord_cases b
  · exact absurd hw h
  · rw [hw]
    exact ⟨hl, fun _ => getLsbD_corBlock_of_locate hloc⟩

/-! At most one flipped bit (R62, R63). -/

/-- COR restores a codeword with at most one flipped bit (42_corrector.md R62, R63). -/
theorem corBlock_of_atMostOneFlip {c received : Block m} (hc : isCodeword c = true)
    (h : atMostOneFlip c received) : corBlock received = c := by
  obtain rfl | ⟨j, hj, rfl⟩ := h
  · exact corBlock_of_noError (locate_of_isCodeword hc)
  · rw [corBlock_of_locate (locate_flipBit_codeword hc hj), flipBit_flipBit]

theorem isCodeword_encBlock (b : Block m) : isCodeword (encBlock b) = true := (isCodeword_iff _).2 ⟨b, rfl⟩

/-- Settles O26: ENC answers a codeword, and COR restores it. -/
theorem singleErrorIsCorrected : Obligations.SingleErrorIsCorrected := by
  refine fun s b => ⟨encBlock b, exec_enc s b, fun ports inbox delivered received h => ?_⟩
  have hcor : corBlock received = encBlock b := corBlock_of_atMostOneFlip (isCodeword_encBlock b) h
  exact ⟨synWord received, locWord received, hcor ▸ exec_cor ⟨s.size, ports, inbox, delivered⟩ received⟩

/-- Settles O10: COR answers the located index and the block with that bit inverted; a codeword comes back, with and
without a flip of bit 0. -/
theorem corFlipsTheLocatedBit : Obligations.CorFlipsTheLocatedBit := by
  refine fun s b => ⟨decodeReq_packed 0b11#2 b, corBlock b, synWord b, locWord b, exec_cor s b, isSyndrome_synWord b,
    isLocation_locWord b, fun h => corBlock_of_noError ((locWord_eq_allOnes_iff b).1 h),
    getLsbD_corBlock_of_locWord_ne, fun hc => ?codeword, fun d hd hb => ?flipZero, fun hb => ?zero,
    block_of_literal (fun b => (corBlock b).toNat = 0) (by decide),
    block_of_literal (fun b => (corBlock b).toNat = 1) (by decide),
    block_of_literal (fun b => (corBlock b).toNat = 0xC366 ∧ (locWord b).toNat = 0x0A ∧ (synWord b).toNat = 10)
      (by decide)⟩
  case codeword =>
    exact ⟨corBlock_of_atMostOneFlip hc (.inl rfl), locWord_of_noError (locate_of_isCodeword hc)⟩
  case flipZero =>
    have h0 : 0 < 2 ^ s.m := Nat.two_pow_pos _
    rw [hb]
    exact ⟨corBlock_of_atMostOneFlip hd (.inr ⟨0, h0, rfl⟩),
      toNat_locWord_of_locate (locate_flipBit_codeword hd h0) h0⟩
  case zero =>
    rw [hb]
    exact corBlock_of_atMostOneFlip isCodeword_zero (.inl rfl)

/-! A message (R64). -/

/-- RESP of the packed word is the row of its op (30_encoding.md R30, R33). -/
theorem respReq_packed (op : OpWord) (b : Block m) : respReq (packed op.toNat b) = resp op b := by
  have hblk : blkField (reqOf op b) = b := by
    apply BitVec.eq_of_toNat_eq
    rw [reqOf, toNat_blkField_encode, blk_instrOfOp, Nat.mod_eq_of_lt b.isLt]
  rw [packed_eq_reqOf, respReq, hblk, reqOf, opField_encode, opcode_instrOfOp]

/-- Requests at the head of the inbox, each held stable for any number of time units, are answered one after the
other; the ports carry the last response (20_memory.md R25). -/
theorem run_requests {z : BlockSize} (ports : Response z.m) (ws : List (Req z.m × Nat))
    (rest : List (HostEvent z.m)) (delivered : List (Response z.m)) :
    Host.Core.run Sys2Proof.core ws.length
        (⟨z, ports, (ws.map fun p => .request p.1 (List.replicate p.2 p.1)) ++ rest, delivered⟩ : State) =
      .next (⟨z, ((ws.map fun p => respReq p.1).getLast?).getD ports, rest,
        delivered ++ ws.map fun p => respReq p.1⟩ : State) := by
  induction ws generalizing ports delivered with
  | nil => simp [Host.Core.run]
  | cons p ws ih =>
    rw [List.length_cons, run_of_next (step_of_request rfl fun _ => List.eq_of_mem_replicate)]
    exact (ih _ _).trans (by simp [List.getLast?_cons])

/-- The same, for any state with those requests at the head of its inbox. -/
theorem run_of_requests {s : State} {ws : List (Req s.m × Nat)} {rest : List (HostEvent s.m)}
    (h : s.inbox = (ws.map fun p => HostEvent.request p.1 (List.replicate p.2 p.1)) ++ rest) :
    Host.Core.run Sys2Proof.core ws.length s = .next
      { s with
        ports := ((ws.map fun p => respReq p.1).getLast?).getD s.ports
        inbox := rest
        delivered := s.delivered ++ ws.map fun p => respReq p.1 } := by
  have hs : s = { s with inbox := (ws.map fun p => .request p.1 (List.replicate p.2 p.1)) ++ rest } := by rw [← h]
  exact (congrArg (Host.Core.run Sys2Proof.core ws.length) hs).trans (run_requests _ _ _ _)

/-- Settles O36: the run of COR requests delivers RESP of each block's request, whose block is COR of the block. -/
theorem messageCorrectionIsBlockwise : Obligations.MessageCorrectionIsBlockwise := by
  intro s blocks h
  have hrun := run_of_requests (ws := blocks.map fun b => (packed 3 b, 0)) (rest := [])
    (by rw [h, List.map_map, List.append_nil]; rfl)
  rw [List.length_map, List.map_map] at hrun
  refine ⟨_, _, hrun, ?_⟩
  rw [List.map_map]
  exact List.map_congr_left fun b _ => congrArg Response.blkOut (respReq_packed 0b11#2 b)

end Sys2Proof.Machine
end

section
/-! Proofs of the statements on the host software (spec/45_host_framing.md): text and bits (R70, R71), chunk (R72,
R73), join (R74, R79), decode (R76) and the end-to-end result (R78). -/

namespace Sys2Proof.Machine

open Sys2Proof.Claims

/-! Text and bits (R70, R71). -/

theorem getD_byteBits (c : Nat) {j : Nat} (hj : j < 8) : (byteBits c).getD j false = c.testBit (7 - j) := by
  interval_cases j <;> rfl

/-- Bit j of character k; a character past the end counts as code 0. -/
theorem getD_flatMap_byteBits (text : List Nat) (k : Nat) {j : Nat} (hj : j < 8) :
    (text.flatMap byteBits).getD (8 * k + j) false = (text.getD k 0).testBit (7 - j) := by
  induction text generalizing k with
  | nil => simp
  | cons c text ih =>
    rw [List.flatMap_cons]
    cases k with
    | zero =>
      rw [Nat.mul_zero, Nat.zero_add, List.getD_append _ _ _ _ (hj.trans_eq (length_byteBits c).symm),
        getD_byteBits c hj, List.getD_cons_zero]
    | succ k =>
      have hle : (byteBits c).length ≤ 8 * (k + 1) + j := by
        rw [length_byteBits]
        omega
      have hsub : 8 * (k + 1) + j - (byteBits c).length = 8 * k + j := by
        rw [length_byteBits]
        omega
      rw [List.getD_append_right _ _ _ _ hle, hsub, ih, List.getD_cons_succ]

/-- Settles O47: toBinary answers the characters' bytes, and the refusal is its error law. -/
theorem textBecomesBitsMsbFirst : Obligations.TextBecomesBitsMsbFirst :=
  ⟨fun text h => ⟨text.flatMap byteBits, (toBinary_eq_ok text _).2 ⟨h, rfl⟩, length_flatMap_byteBits text,
    fun k _ _ hj => getD_flatMap_byteBits text k hj⟩, fun text => (toBinary_eq_error text).2, by decide⟩

theorem toAscii_flatMap_byteBits {text : List Nat} (h : ∀ c ∈ text, c ≤ 255) :
    toAscii (text.flatMap byteBits) = .ok text := by
  have happ := toAscii_flatMap_append h (rest := []) (tail := []) rfl
  rwa [List.append_nil, List.append_nil] at happ

theorem toAscii_eq_format_iff (bits : List Bool) : toAscii bits = .error .format ↔ bits.length % 8 ≠ 0 := by
  rcases toAscii_cases bits with ⟨hl, text, ht⟩ | ⟨hl, he⟩
  · simp [hl, ht]
  · simp [hl, he]

/-- Settles O48: both functions are tied to the bytes of the text, and toAscii fails on exactly the other lengths. -/
theorem asciiInvertsBinary : Obligations.AsciiInvertsBinary := by
  refine ⟨fun text bits h => ?_, fun text bits h => ?_, toAscii_eq_format_iff, rfl⟩
  · obtain ⟨hc, rfl⟩ := (toBinary_eq_ok text bits).1 h
    exact toAscii_flatMap_byteBits hc
  · exact (toBinary_eq_ok text bits).2 (toAscii_eq_ok h)

/-! chunk (R72, R73). -/

variable {z : BlockSize}

theorem two_le_m_of_one_le_k (hk : 1 ≤ z.k) : 2 ≤ z.m := by
  by_contra hm
  have hone : z.m = 1 := by
    have := z.pos
    omega
  rw [k_of_m hone] at hk
  omega

theorem length_dataPositions_eq_k (z : BlockSize) : (dataPositions z.n).length = z.k := length_dataPositions z.m

theorem chunk_nil (z : BlockSize) : chunk z.m [] = .ok [] := by
  have hm : z.m ≠ 0 := Nat.one_le_iff_ne_zero.1 z.pos
  simp [chunk, hm]

theorem chunk_one {bits : List Bool} (h : bits ≠ []) : chunk 1 bits = .error .noDataSlot := by
  rw [chunk, if_neg Nat.one_ne_zero, if_neg h, if_pos (by decide)]

theorem length_chunkBlocks (hk : 1 ≤ z.k) (bits : List Bool) :
    (chunkBlocks z.n bits.length bits).length = (bits.length + z.k - 1) / z.k := by
  obtain ⟨hl, -⟩ := chunkBlocks_spec (two_le_m_of_one_le_k hk) bits.length bits (le_refl _)
  rwa [length_dataPositions_eq_k] at hl

/-- The slots of block k: reserved at 0 and P, and input bit kK + j, or a zero past the end, at dpos(j)
(45_host_framing.md R73). -/
theorem slots_of_chunkBlocks {fuel k : Nat} {bits : List Bool} {slots : List Slot}
    (h : (chunkBlocks z.n fuel bits)[k]? = some slots) : slots.length = z.n ∧
      (∀ i, i = 0 ∨ i ∈ parityPositions z.m → slots[i]? = some .reserved) ∧
      ∀ j i, dpos z.n j = some i → slots[i]? = some (.data (bits.getD (k * z.k + j) false)) := by
  rw [eq_fillSlots_of_chunkBlocks h, length_dataPositions_eq_k]
  obtain ⟨hparity, hdata⟩ := getElem?_fillSlots List.nodup_range (bits.drop (k * z.k))
  refine ⟨by rw [length_fillSlots, List.length_range], fun i hi => ?_, fun j i hj => ?_⟩
  · have hpos : i < z.n ∧ isParityPosition i = true := by
      rw [isParityPosition_iff]
      rcases hi with rfl | hi
      · exact ⟨Nat.two_pow_pos z.m, .inl rfl⟩
      · obtain ⟨l, hl, rfl⟩ := (mem_parityPositions z.m i).1 hi
        exact ⟨(two_pow_lt_iff l z.m).2 hl, .inr ⟨l, rfl⟩⟩
    exact hparity i i (List.getElem?_range hpos.1) hpos.2
  · have hi : i < z.n := ((exists_dpos_eq_iff z.n i).1 ⟨j, hj⟩).1
    rw [hdata i i j (List.getElem?_range hi) hj, List.getD_eq_getElem?_getD, List.getElem?_drop,
      ← List.getD_eq_getElem?_getD]

/-- Settles O49: chunk answers its blocks, whose number and slots are the two laws of `chunkBlocks`. -/
theorem chunkPlacesBitsAtDataPositions : Obligations.ChunkPlacesBitsAtDataPositions :=
  ⟨chunk_nil, fun _ => chunk_one, fun z bits hk _ => ⟨chunkBlocks z.n bits.length bits,
    chunk_eq_ok (two_le_m_of_one_le_k hk) bits, length_chunkBlocks hk bits, fun _ _ => slots_of_chunkBlocks⟩⟩

/-! join (R74, R79). -/

theorem getElem?_dataBits {m : Nat} (b : Block m) (j : Nat) :
    (dataBits b)[j]? = (dpos (2 ^ m) j).map fun i => b.getLsbD i := by
  rw [dataBits, List.getElem?_map, dpos]

theorem join_prefix {m : Nat} (blocks : List (Block m)) : join blocks <+: blocks.flatMap dataBits :=
  List.take_prefix _ _

theorem length_join {m : Nat} (blocks : List (Block m)) :
    (join blocks).length = (blocks.flatMap dataBits).length / 8 * 8 :=
  List.length_take_of_le (Nat.div_mul_le_self _ 8)

/-- Settles O50: join takes the data bits up to the largest multiple of 8. -/
theorem joinKeepsDataBits : Obligations.JoinKeepsDataBits := by
  refine fun m blocks => ⟨fun b _ => getElem?_dataBits b, join_prefix blocks, length_join_mod blocks, ?_⟩
  rw [length_join]
  omega

/-- ENC keeps what join reads (40_encoder.md R43). -/
theorem join_map_encBlock {m : Nat} (blocks : List (Block m)) : join (blocks.map encBlock) = join blocks := by
  have hbits : (blocks.map encBlock).flatMap dataBits = blocks.flatMap dataBits := by
    rw [List.flatMap_map]
    exact List.flatMap_congr fun b _ => dataBits_encBlock b
  rw [join, hbits, join]

/-- Joining the chunked blocks gives the input, padded to the blocks' data bits and cut to whole bytes. -/
theorem join_chunkBlocks (hk : 1 ≤ z.k) (bits : List Bool) {total : Nat}
    (ht : (chunkBlocks z.n bits.length bits).length * z.k = total) (hle : bits.length ≤ total) :
    join ((chunkBlocks z.n bits.length bits).map (presentSlots z.m)) =
      (bits ++ List.replicate (total - bits.length) false).take (total / 8 * 8) := by
  obtain ⟨-, hd⟩ := chunkBlocks_spec (two_le_m_of_one_le_k hk) bits.length bits (le_refl _)
  rw [length_dataPositions_eq_k, ht] at hd
  rw [join, List.flatMap_map, hd, List.length_append, List.length_replicate, Nat.add_sub_of_le hle]

/-- The blocks hold the input, with fewer than K positions to spare. -/
theorem ceil_mul_bounds {K : Nat} (hK : 1 ≤ K) (L : Nat) :
    L ≤ (L + K - 1) / K * K ∧ (L + K - 1) / K * K < L + K := by
  have hdiv := Nat.div_add_mod' (L + K - 1) K
  have hmod := Nat.mod_lt (L + K - 1) hK
  omega

/-- Settles O54: the padding fills the last block, and ENC does not change what is joined. -/
theorem joinInvertsChunkUpToPadding : Obligations.JoinInvertsChunkUpToPadding := by
  intro z bits hk
  obtain ⟨hle, hlt⟩ := ceil_mul_bounds hk bits.length
  have htotal := Nat.add_sub_of_le hle
  have henc := join_map_encBlock ((chunkBlocks z.n bits.length bits).map (presentSlots z.m))
  rw [List.map_map, Function.comp_def] at henc
  refine ⟨chunkBlocks z.n bits.length bits, (bits.length + z.k - 1) / z.k * z.k - bits.length,
    chunk_eq_ok (two_le_m_of_one_le_k hk) bits, by omega, ?_, ?_, henc⟩
  · rw [htotal, Nat.mul_mod_left]
  · rw [henc, htotal, join_chunkBlocks hk bits (congrArg (· * z.k) (length_chunkBlocks hk bits)) hle]

/-! decode (R76) and the end-to-end result (R78). -/

theorem decodeBlocks_eq {m : Nat} (blocks : List (Block m)) :
    decodeBlocks blocks = toAscii (join (blocks.map corBlock)) := rfl

/-- Settles O52: the length of what is joined is a multiple of 8, where toAscii answers a text. -/
theorem decodeNeverMeetsFormatError : Obligations.DecodeNeverMeetsFormatError := by
  refine fun m blocks => ⟨decodeBlocks_eq blocks, ?_⟩
  rcases toAscii_cases (join (blocks.map corBlock)) with ⟨-, htext⟩ | ⟨hl, -⟩
  · exact htext
  · exact absurd (length_join_mod _) hl

/-- COR restores a message with at most one flipped bit in each block (42_corrector.md R62, R63). -/
theorem map_corBlock_of_forall₂ {m : Nat} {blocks received : List (Block m)}
    (h : List.Forall₂ atMostOneFlip (blocks.map encBlock) received) : received.map corBlock = blocks.map encBlock := by
  induction List.forall₂_map_left_iff.1 h with
  | nil => rfl
  | cons hflip htail ih =>
    rw [List.map_cons, corBlock_of_atMostOneFlip (isCodeword_encBlock _) hflip,
      ih (List.forall₂_map_left_iff.2 htail), List.map_cons]

/-- decode reads the blocks that ENC was asked for, whatever single bits were flipped. -/
theorem decodeBlocks_of_forall₂ {m : Nat} {blocks received : List (Block m)}
    (h : List.Forall₂ atMostOneFlip (blocks.map encBlock) received) :
    decodeBlocks received = toAscii (join blocks) := by
  rw [decodeBlocks_eq, map_corBlock_of_forall₂ h, join_map_encBlock]

/-- encode's message has ceil(8n / K) blocks, and decode restores the text from it, with the NULs of the padding,
despite a flipped bit in each block (45_host_framing.md R78). -/
theorem encodeBlocks_spec (hk : 1 ≤ z.k) {text : List Nat} (h : ∀ c ∈ text, c ≤ 255) :
    ∃ message, encodeBlocks z.m text = .ok message ∧ message.length = (8 * text.length + z.k - 1) / z.k ∧
      ∀ received, List.Forall₂ atMostOneFlip message received → decodeBlocks received =
        .ok (text ++ List.replicate (message.length * z.k / 8 - text.length) 0) := by
  have henc := encodeBlocks_eq_ok (two_le_m_of_one_le_k hk) h
  rw [← Function.comp_def, ← List.map_map] at henc
  have hbits := length_flatMap_byteBits text
  have hlen := length_chunkBlocks hk (text.flatMap byteBits)
  obtain ⟨hle, -⟩ := ceil_mul_bounds hk (text.flatMap byteBits).length
  rw [← hlen] at hle
  refine ⟨_, henc, ?_, fun received hr => ?_⟩
  · rw [List.length_map, List.length_map, hlen, hbits]
  · rw [decodeBlocks_of_forall₂ hr, join_chunkBlocks hk _ rfl hle, List.length_map, List.length_map]
    rw [hbits] at hle ⊢
    exact toAscii_join_padded h hle

theorem text_append_nuls_eq_text_iff (text : List Nat) (total : Nat) :
    (Except.ok (text ++ List.replicate (total / 8 - text.length) 0) : Except HostFault (List Nat)) = .ok text ↔
      total - 8 * text.length < 8 := by
  rw [Except.ok.injEq, List.append_right_eq_self, List.replicate_eq_nil_iff]
  omega

theorem k_lt_n (z : BlockSize) : z.k < z.n := by
  have hn : 0 < z.n := Nat.two_pow_pos z.m
  rw [BlockSize.k]
  omega

/-- Settles O53: the text comes back with its NULs; at N = 4 and N = 8 fewer than K < 8 bits of padding make none,
and abc at N = 16 has 33 data bits. -/
theorem endToEndResult : Obligations.EndToEndResult := by
  refine ⟨fun z text hk h => ?_, ?_⟩
  · obtain ⟨message, henc, hlen, hdec⟩ := encodeBlocks_spec hk h
    refine ⟨message, henc, hlen, fun received hr => ?_⟩
    have hiff := text_append_nuls_eq_text_iff text (message.length * z.k)
    rw [← hdec received hr] at hiff
    refine ⟨hdec received hr, hiff, fun hn => hiff.2 ?_⟩
    obtain ⟨-, hlt⟩ := ceil_mul_bounds hk (8 * text.length)
    have hkn := k_lt_n z
    rw [hlen]
    omega
  · obtain ⟨message, henc, hlen, hdec⟩ :=
      encodeBlocks_spec (z := .reference) (by decide) (text := [97, 98, 99]) (by decide)
    have hnul := hdec message (List.forall₂_same.2 fun _ _ => .inl rfl)
    rw [hlen] at hnul
    exact ⟨message, henc, hnul⟩

end Sys2Proof.Machine
end

section
/-! Proofs of the statements on exceptions (spec/60_exceptions.md): every request has a response (R80). -/

namespace Sys2Proof.Machine

open Sys2Proof.Claims

/-- Settles O12: running a request word delivers its row of RESP, and a fault has no reason to carry. -/
theorem everyRequestHasAResponse : Obligations.EveryRequestHasAResponse := by
  constructor
  · intro s op b _
    exact ⟨respReq (packed op b), exec_decodeReq_eq s (packed op b)⟩
  · intro s f
    cases f

end Sys2Proof.Machine
end

section
/-! Proofs of the statements on reset and hazards (spec/70_reset_and_hazards.md): the latency (R93) and reset (R90). -/

namespace Sys2Proof.Machine

open Sys2Proof.Claims

/-- A request presented and held for any number of time units delivers RESP of its word (R93). -/
theorem step_present_replicate (s : State) (w : Req s.m) (latency : Nat) :
    step (s.present (.request w (List.replicate latency w))) = .next (s.deliver (respReq w)) :=
  step_of_request (s := s.present _) rfl fun _ => List.eq_of_mem_replicate

/-- Settles O31: the response to a held request does not mention the latency. -/
theorem latencyChangesNothing : Obligations.LatencyChangesNothing := fun s w latency latency' =>
  (step_present_replicate s w latency).trans (step_present_replicate s w latency').symm

/-- A reset that interrupts no changed request takes its event and makes the ports idle (R90). -/
theorem step_of_stableInFlight {s : State} {inFlight : Option (Req s.m × List (Req s.m))}
    {rest : List (HostEvent s.m)} (h : s.inbox = .reset inFlight :: rest) (hs : StableInFlight inFlight) :
    step s = .next { s with ports := .idle s.m, inbox := rest } :=
  step_of_reset h ((stable_reset_iff inFlight).2 hs)

/-- A reset and the request behind it, in two steps: the request's response and no other is delivered. -/
theorem run_reset_request {s : State} {inFlight : Option (Req s.m × List (Req s.m))} {w : Req s.m}
    {held : List (Req s.m)} {rest : List (HostEvent s.m)}
    (h : s.inbox = .reset inFlight :: .request w held :: rest) (hs : StableInFlight inFlight)
    (hh : ∀ x ∈ held, x = w) :
    Host.Core.run Sys2Proof.core 2 s = .next (after { s with inbox := rest } (respReq w)) := by
  rw [run_of_next (step_of_stableInFlight h hs)]
  exact run_of_next (k := 0) (step_of_request rfl hh)

/-- Settles O32: the idle ports at reset, the step of the reset event, and RESP of the request behind it. -/
theorem resetDiscardsTheTransaction : Obligations.ResetDiscardsTheTransaction := by
  refine ⟨fun z => resetOf_ports z, fun s inFlight rest h hs => step_of_stableInFlight h hs, ?_⟩
  intro s inFlight w held rest h hs hh
  exact ⟨respReq w, exec_decodeReq_eq s w, run_reset_request h hs hh⟩

end Sys2Proof.Machine
end

section
/-! Proofs of the statements on reading and writing a request word (spec/30_encoding.md §1, §2, §4): fixed words, the
round trip (R30 to R32, R37) and the length of a word (R38). -/

namespace Sys2Proof.Machine

/-- Settles O1: each word is decoded by evaluation. -/
theorem requestWordsDecodeAsWritten : Obligations.RequestWordsDecodeAsWritten := by
  unfold Obligations.RequestWordsDecodeAsWritten
  decide

/-- Both decoders read a request word alike. -/
theorem decodeWord_toNat {m : Nat} (w : Req m) : decodeWord m w.toNat = .ok (decodeReq w) := by
  rw [decodeWord, if_pos w.isLt, BitVec.ofNat_toNat, BitVec.setWidth_eq]

/-- Settles O5: the encoder's word is read field by field, and the decoder on numbers reads it the same way. -/
theorem decodeEncodeRoundTrip : Obligations.DecodeEncodeRoundTrip := by
  intro m i h
  refine ⟨decodeReq_encode h, ?_⟩
  rw [decodeWord_toNat, decodeReq_encode h]

/-- Settles O6: by the one test the decoder on numbers makes. -/
theorem overlongWordRejected : Obligations.OverlongWordRejected := by
  intro m w
  rw [← Nat.not_lt, decodeWord]
  by_cases h : w < 2 ^ (2 ^ m + 2)
  · simp [h]
  · simp [h]

end Sys2Proof.Machine
end

section
/-! Proofs of the statements on what an operation may change and read (spec/10_state.md, spec/20_memory.md §3) and on
the step that runs it. -/

namespace Sys2Proof.Machine

open Sys2Proof.Claims

/-- Settles O13: a meaning delivers where its operand is a block, and refuses it where it is too wide. -/
theorem wideOperandRefused : Obligations.WideOperandRefused := by
  intro s i
  rw [← Bool.not_eq_true, wellFormed_iff, Nat.not_lt]
  obtain ⟨b, hb, hnext⟩ | ⟨hwide, hrefused⟩ := exec_cases i s
  · have hlt : i.blk < 2 ^ 2 ^ s.m := hb ▸ b.isLt
    simp [hnext, hlt]
  · exact iff_of_true hwide hrefused

/-- Settles O14: the one next state a meaning can answer is a delivery. -/
theorem operationsChangeOnlyTheResponse : Obligations.OperationsChangeOnlyTheResponse := by
  intro i s t h
  obtain ⟨b, -, hnext⟩ | ⟨-, hrefused⟩ := exec_cases i s
  · cases hnext.symm.trans h
    exact ⟨resp (opcode i) b, rfl⟩
  · cases hrefused.symm.trans h

/-- Settles O34: the response is RESP of the word, which reads nothing of the state but its size. -/
theorem responseDependsOnRequestAlone : Obligations.ResponseDependsOnRequestAlone :=
  fun z w => ⟨respReq w, fun ports inbox delivered => exec_decodeReq_eq ⟨z, ports, inbox, delivered⟩ w⟩

/-- Settles O28: the step of a held request and the decoded word's meaning deliver the same response. -/
theorem stepRunsTheDecodedRequest : Obligations.StepRunsTheDecodedRequest :=
  fun s w _ rest h hh => (step_of_request h hh).trans (exec_decodeReq_rest s w rest).symm

/-- Presenting a word and taking it again leaves the state as it was: the step is the word's meaning. -/
theorem step_withFetchWord (s : State) (nbits : Nat) (w : Req s.m) :
    step (s.withFetchWord nbits w.toNat) = exec (decodeReq w) s := by
  rw [State.withFetchWord, presentWord_toNat]
  exact stepRunsTheDecodedRequest (s.present _) w [] s.inbox rfl fun _ hx => absurd hx List.not_mem_nil

/-- Settles O29: the presented word decodes to the operation it was encoded from. -/
theorem stepRunsTheEncodedInstruction : Obligations.StepRunsTheEncodedInstruction := by
  intro s i h
  rw [step_withFetchWord, decodeReq_encode h]

/-- Settles O33: a step without an event is the first case of the step. -/
theorem idleStepChangesNothing : Obligations.IdleStepChangesNothing := by
  intro s h
  rw [step, h]

/-- A step on an event is refused exactly where the host changed a request within its transaction. -/
theorem step_eq_requestChanged_iff {s : State} {e : HostEvent s.m} {rest : List (HostEvent s.m)}
    (h : s.inbox = e :: rest) : step s = .refused .requestChanged ↔ e.stable = false := by
  refine ⟨fun hstep => ?_, step_of_unstable h⟩
  cases he : e.stable with
  | false => rfl
  | true =>
    cases e with
    | request w held => cases (step_of_request h ((heldStable_iff w held).1 he)).symm.trans hstep
    | reset inFlight => cases (step_of_reset h he).symm.trans hstep

theorem heldStable_eq_false_iff {m : Nat} (w : Req m) (held : List (Req m)) :
    heldStable w held = false ↔ ∃ x ∈ held, x ≠ w := by
  rw [← Bool.not_eq_true, heldStable_iff]
  push Not
  rfl

/-- Settles O30: both events are refused exactly where they are not stable; a held request gets RESP of its word. -/
theorem changedRequestIsRefused : Obligations.ChangedRequestIsRefused := by
  intro s w held rest
  refine ⟨fun h => ⟨?_, fun hh => step_of_request h hh⟩, fun h => ?_⟩
  · rw [step_eq_requestChanged_iff h, stable_request, heldStable_eq_false_iff]
  · rw [step_eq_requestChanged_iff h, stable_reset_some, heldStable_eq_false_iff]

end Sys2Proof.Machine
end

section
/-! Proofs of the statements on the boundary invariant (spec/30_encoding.md §3, spec/70_reset_and_hazards.md §1):
reset meets it and every step keeps it. -/

namespace Sys2Proof.Machine

theorem idle_legal (m : Nat) : (Response.idle m).Legal := by
  refine ⟨fun _ => rfl, fun hmsb => ?_⟩
  rw [idle_loc, msb_allOnes_succ] at hmsb
  cases hmsb

/-- The invariant does not read the inbox. -/
theorem boundaryInv_withInbox {s : State} (h : s.BoundaryInv) (rest : List (HostEvent s.m)) :
    State.BoundaryInv { s with inbox := rest } :=
  ⟨h.ports_legal, h.delivered_legal, h.ports_idle_or_last⟩

theorem boundaryInv_takeReset {s : State} (h : s.BoundaryInv) : s.takeReset.BoundaryInv :=
  ⟨idle_legal s.m, h.delivered_legal, .inl rfl⟩

/-- Delivering a legal response keeps the invariant: the ports then carry the last response. -/
theorem boundaryInv_deliver {s : State} (h : s.BoundaryInv) {r : Response s.m} (hr : r.Legal) :
    (s.deliver r).BoundaryInv := by
  refine ⟨hr, fun x hx => ?_, .inr List.getLast?_concat⟩
  obtain hx | hx := List.mem_append.1 hx
  · exact h.delivered_legal x hx
  · exact List.mem_singleton.1 hx ▸ hr

/-- Settles O38: an idle step changes nothing, a reset makes the ports idle, and a request delivers a legal
response. -/
theorem boundaryInvariantIsKept : Obligations.BoundaryInvariantIsKept := by
  intro s t hs ht
  obtain ⟨-, hstep⟩ | ⟨_, rest, -, -, hstep⟩ | ⟨w, _, rest, -, -, hstep⟩ | ⟨_, _, -, -, hstep⟩ :=
    step_cases s
  · cases hstep.symm.trans ht
    exact hs
  · cases hstep.symm.trans ht
    exact boundaryInv_takeReset (boundaryInv_withInbox hs rest)
  · cases hstep.symm.trans ht
    exact boundaryInv_deliver (boundaryInv_withInbox hs rest) (resp_legal (opField w) (blkField w))
  · cases hstep.symm.trans ht

/-- Settles O39: the ports are idle at reset and nothing has been delivered. -/
theorem boundaryInvariantAtReset : Obligations.BoundaryInvariantAtReset :=
  fun z => ⟨idle_legal z.m, fun _ hr => absurd hr List.not_mem_nil, .inl rfl⟩

end Sys2Proof.Machine
end

section
/-! Proofs of the statements on runs (spec/20_memory.md §5, spec/70_reset_and_hazards.md §2): requests in
order (R25), messages (R64, R75), and runs that go on (R94). -/

namespace Sys2Proof.Machine

open Sys2Proof.Claims

/-- Settles O35: `run_of_requests` is the induction over the requests. -/
theorem responsesComeInRequestOrder : Obligations.ResponsesComeInRequestOrder :=
  fun _ _ _ => run_of_requests

/-- One request of the same op for each block of a list: the run delivers RESP of each block, in order. -/
theorem run_of_blocks (op : OpWord) {s : State} {blocks : List (Block s.m)}
    (h : s.inbox = blocks.map fun b => HostEvent.request (packed op.toNat b) []) :
    ∃ ports : Response s.m, Host.Core.run Sys2Proof.core blocks.length s =
      .next { s with ports := ports, inbox := [], delivered := s.delivered ++ blocks.map (resp op) } := by
  have hrun := run_of_requests (ws := blocks.map fun b => (packed op.toNat b, 0)) (rest := [])
    (by rw [h, List.map_map, List.append_nil]; rfl)
  have hresp : ((blocks.map fun b => (packed op.toNat b, 0)).map fun p => respReq p.1) = blocks.map (resp op) := by
    rw [List.map_map]
    exact List.map_congr_left fun b _ => respReq_packed op b
  rw [List.length_map, hresp] at hrun
  exact ⟨_, hrun⟩

/-- Settles O37: the run of COR requests delivers COR of each received block, which is the codeword sent. -/
theorem corruptedMessageIsRestored : Obligations.CorruptedMessageIsRestored := by
  intro s message hflip h
  obtain ⟨ports, hrun⟩ :=
    run_of_blocks 0b11#2 (blocks := message.map Prod.snd) (by rw [h, List.map_map]; rfl)
  rw [List.length_map] at hrun
  refine ⟨ports, _, hrun, ?_⟩
  rw [List.map_map, List.map_map]
  refine List.map_congr_left fun p hp => ?_
  obtain ⟨hc, hp⟩ := hflip p hp
  exact corBlock_of_atMostOneFlip hc hp

/-- Settles O51: the run of ENC requests delivers RESP of each chunk, whose blocks are the message. -/
theorem encodeIsOneEncPerBlock : Obligations.EncodeIsOneEncPerBlock := by
  intro s text asked message hasked hmessage h
  obtain ⟨ports, hrun⟩ := run_of_blocks 0b00#2 h
  refine ⟨ports, _, hrun, ?_⟩
  rw [encodeBlocks, hasked] at hmessage
  rw [List.map_map]
  exact Except.ok.inj hmessage

/-- A step takes a stable event from the inbox and answers a state of the same size. -/
theorem exists_step_of_stable {z : BlockSize} (ports : Response z.m) {e : HostEvent z.m} (he : e.stable = true)
    (rest : List (HostEvent z.m)) (delivered : List (Response z.m)) :
    ∃ (ports' : Response z.m) (delivered' : List (Response z.m)),
      step ⟨z, ports, e :: rest, delivered⟩ = .next ⟨z, ports', rest, delivered'⟩ := by
  cases e with
  | request w held => exact ⟨_, _, step_of_request rfl ((heldStable_iff w held).1 he)⟩
  | reset inFlight => exact ⟨_, _, step_of_reset rfl he⟩

/-- A run without events changes nothing (log entry 6). -/
theorem run_of_idle {s : State} (h : s.inbox = []) (k : Nat) : Host.Core.run Sys2Proof.core k s = .next s := by
  induction k with
  | zero => rfl
  | succ k ih => rw [run_of_next (idleStepChangesNothing s h), ih]

/-- A run of stable events takes one event a step, and stays where it is once they are taken. -/
theorem run_of_safeInbox (k : Nat) {z : BlockSize} (ports : Response z.m) {inbox : List (HostEvent z.m)}
    (h : SafeInbox inbox) (delivered : List (Response z.m)) :
    (∃ (ports' : Response z.m) (delivered' : List (Response z.m)),
      Host.Core.run Sys2Proof.core k (⟨z, ports, inbox, delivered⟩ : State) =
        .next (⟨z, ports', inbox.drop k, delivered'⟩ : State)) ∧
    (inbox.length ≤ k → Host.Core.run Sys2Proof.core k (⟨z, ports, inbox, delivered⟩ : State) =
      Host.Core.run Sys2Proof.core inbox.length (⟨z, ports, inbox, delivered⟩ : State)) := by
  induction k generalizing ports inbox delivered with
  | zero => exact ⟨⟨ports, delivered, rfl⟩, fun hle => by rw [Nat.le_zero.1 hle]⟩
  | succ k ih =>
    cases inbox with
    | nil =>
      exact ⟨⟨ports, delivered, run_of_idle rfl _⟩, fun _ => (run_of_idle rfl _).trans (run_of_idle rfl _).symm⟩
    | cons e rest =>
      obtain ⟨he, hrest⟩ := List.forall_mem_cons.1 h
      obtain ⟨ports', delivered', hstep⟩ := exists_step_of_stable ports he rest delivered
      rw [List.length_cons, run_of_next hstep, run_of_next hstep, Nat.succ_le_succ_iff]
      exact ih ports' hrest delivered'

/-- Settles O40: `run_of_safeInbox` is the induction over the steps. -/
theorem safeInboxNeverStops : Obligations.SafeInboxNeverStops :=
  fun k s h => run_of_safeInbox k s.ports h s.delivered

end Sys2Proof.Machine
end

section
/-! Proofs of the statements on several instances (spec/60_exceptions.md R87, spec/20_memory.md R25) and on an invalid
block size (R81). -/

namespace Sys2Proof.Machine

open Sys2Proof.Claims

theorem exists_build_iff (l : List State) : (∃ p, Platform.build l = some p ∧ p.instances = l) ↔ 1 ≤ l.length := by
  constructor
  · rintro ⟨p, -, rfl⟩
    exact one_le_count p
  · intro h
    exact ⟨⟨l, List.ne_nil_of_length_pos h⟩, (build_eq_some l _).2 rfl, rfl⟩

theorem getElem?_put_self {p : Platform} {k : Nat} {s : State} (h : p.instances[k]? = some s) (t : State) :
    (p.put k t).instances[k]? = some t :=
  List.getElem?_set_self (List.getElem?_eq_some_iff.1 h).1

theorem getElem?_put_of_ne (p : Platform) {k j : Nat} (h : k ≠ j) (t : State) :
    (p.put k t).instances[j]? = p.instances[j]? :=
  List.getElem?_set_ne h

/-- Settles O45: a step puts the next state in the place of the one that made it, and puts in two places commute. -/
theorem instancesAreIndependent : Obligations.InstancesAreIndependent := by
  refine ⟨⟨one_le_count, exists_build_iff⟩, fun p k s t hs ht => ?frame,
    fun p k j s t s' t' hkj hs ht hs' ht' => ?commute⟩
  case frame =>
    exact ⟨p.put k t, stepAt_of_next hs ht, getElem?_put_self hs t, fun j hj => getElem?_put_of_ne p hj.symm t⟩
  case commute =>
    have hj : (p.put k t).stepAt j = some (.next ((p.put k t).put j t')) :=
      stepAt_of_next ((getElem?_put_of_ne p hkj t).trans hs') ht'
    have hk : (p.put j t').stepAt k = some (.next ((p.put j t').put k t)) :=
      stepAt_of_next ((getElem?_put_of_ne p hkj.symm t').trans hs) ht
    rw [put_comm p hkj.symm] at hk
    exact ⟨_, _, _, stepAt_of_next hs ht, stepAt_of_next hs' ht', hj, hk⟩

/-- With distinct tags, looking up a tag finds the one result that carries it. -/
theorem lookup_of_mem {α : Type} {l : List (Nat × α)} (hn : (l.map Prod.fst).Nodup) {i : Nat} {a : α}
    (h : (i, a) ∈ l) : l.lookup i = some a := by
  induction l with
  | nil => cases h
  | cons p l ih =>
    obtain ⟨hp, hn⟩ := List.nodup_cons.1 hn
    rcases List.mem_cons.1 h with rfl | h
    · exact List.lookup_cons_self
    · have hne : i ≠ p.1 := fun hi => hp (hi ▸ List.mem_map_of_mem h)
      rw [List.lookup_cons, beq_false_of_ne hne]
      exact ih hn h

/-- The tags are the places in the message. -/
theorem map_fst_tagBlocks {α : Type} (blocks : List α) :
    (tagBlocks blocks).map Prod.fst = List.range blocks.length := by
  rw [tagBlocks, List.map_map, List.range_eq_range']
  exact List.zipIdx_map_snd 0 blocks

theorem mem_tagBlocks {α : Type} {blocks : List α} {i : Nat} {b : α} :
    (i, b) ∈ tagBlocks blocks ↔ blocks[i]? = some b := by
  simp [tagBlocks, List.mem_zipIdx_iff_getElem?]

/-- Settles O46: whatever the order, the lookup of tag i finds the result of block i. -/
theorem blockOrderIsRestored : Obligations.BlockOrderIsRestored := by
  intro blocks f results hperm
  have htags : (results.map Prod.fst).Nodup := by
    rw [(hperm.map _).nodup_iff, List.map_map]
    exact (map_fst_tagBlocks blocks).symm ▸ List.nodup_range
  have hlookup : ∀ i ∈ List.range blocks.length, results.lookup i = some (f (blocks.getD i 0)) := by
    intro i hi
    have hb : blocks[i]? = some (blocks.getD i 0) := by simp [List.mem_range.1 hi]
    exact lookup_of_mem htags (hperm.mem_iff.2 (List.mem_map.2 ⟨_, mem_tagBlocks.2 hb, rfl⟩))
  calc restoreOrder blocks.length results
    _ = (List.range blocks.length).map fun i => f (blocks.getD i 0) := by
      rw [restoreOrder, List.filterMap_congr hlookup, ← List.filterMap_eq_map]
      rfl
    _ = blocks.map f := List.ext_getElem (by simp) (by simp +contextual)

/-- Settles O42: elaboration refuses such an N, and both host functions elaborate first. -/
theorem configurationErrorFailsFast : Obligations.ConfigurationErrorFailsFast := by
  intro n hn
  have hnone : elaborate n = none := (elaborate_eq_none n).2 hn
  refine ⟨hnone, fun z hz => hn ⟨z.m, z.pos, hz.symm⟩, fun text blocks => ?_⟩
  rw [encodeText, decodeText, hnone]
  exact ⟨rfl, rfl⟩

/-- Settles O59: the first test chunk makes. -/
theorem chunkRefusesBlockSizeOne : Obligations.ChunkRefusesBlockSizeOne := fun _ => if_pos rfl

end Sys2Proof.Machine
end

section
/-! Proofs of the statements on the located index as a value (spec/60_exceptions.md R84), the ranges of the status
functions (spec/41_syndrome_locator.md R55) and two or more flipped bits (spec/42_corrector.md R65). -/

namespace Sys2Proof.Machine

open Sys2Proof.Claims

variable {m : Nat}

/-! The `loc` port and its consumer (R34, R84). -/

theorem lt_of_locate {b : Block m} {l : Nat} (h : locate b = l) : l < 2 ^ m := by
  obtain hneg | ⟨l', hl', hloc⟩ := locate_range b
  · omega
  · omega

/-- No index of a block is encoded as all ones (30_encoding.md R34). -/
theorem enc2c_ne_allOnes {l : Nat} (hl : l < 2 ^ m) : enc2c (m + 1) (l : Int) ≠ BitVec.allOnes (m + 1) := by
  intro h
  have hval := congrArg BitVec.toNat h
  rw [enc2c_natCast, BitVec.toNat_ofNat, Nat.mod_eq_of_lt (lt_two_pow_succ hl), BitVec.toNat_allOnes,
    Nat.pow_succ] at hval
  omega

theorem readLoc_allOnes (m : Nat) : readLoc (BitVec.allOnes (m + 1)) = .ok none := by
  simp [readLoc, msb_allOnes_succ]

theorem readLoc_of_msb {w : LocWord m} (h : w.msb = false) : readLoc w = .ok (some w.toNat) := if_pos h

/-- Settles O25: the two cases of LOC, on its port word, in COR and at the consumer. -/
theorem noErrorIsAValue : Obligations.NoErrorIsAValue := by
  refine fun m b => ⟨locWord_eq_allOnes_iff b, fun l => enc2c_ne_allOnes, fun h => ⟨corBlock_of_noError h, ?_⟩,
    fun l h => ?_⟩
  · rw [locWord_of_noError h, readLoc_allOnes]
  · have hl := lt_of_locate h
    rw [readLoc_of_msb (msb_locWord_of_locate h hl), toNat_locWord_of_locate h hl]

/-! Ranges (R55). -/

theorem foldl_xor_lt {is : List Nat} (h : ∀ i ∈ is, i < 2 ^ m) {x : Nat} (hx : x < 2 ^ m) :
    is.foldl (· ^^^ ·) x < 2 ^ m := by
  induction is generalizing x with
  | nil => exact hx
  | cons i is ih =>
    obtain ⟨hi, his⟩ := List.forall_mem_cons.1 h
    exact ih his (Nat.xor_lt_two_pow hx hi)

theorem xorAll_lt {is : List Nat} (h : ∀ i ∈ is, i < 2 ^ m) : xorAll is < 2 ^ m := foldl_xor_lt h (Nat.two_pow_pos m)

theorem locate_bounds (b : Block m) : -1 ≤ locate b ∧ locate b ≤ 2 ^ m - 1 ∧ (locate b < 0 → locate b = -1) := by
  have hpos : (0 : Int) < 2 ^ m := by positivity
  obtain h | ⟨l, hl, h⟩ := locate_range b
  · omega
  · have hl' : (l : Int) < 2 ^ m := by exact_mod_cast hl
    omega

/-- COR carries nothing from one bit to another (41_syndrome_locator.md R55). -/
theorem getLsbD_corBlock (b : Block m) {i : Nat} (hi : i < 2 ^ m) :
    (corBlock b).getLsbD i = (b.getLsbD i).xor (decide (locate b = (i : Int))) := by
  obtain h | ⟨l, -, h⟩ := locate_range b
  · have hne : ¬ locate b = (i : Int) := by omega
    rw [corBlock_of_noError h, decide_eq_false hne, Bool.xor_false]
  · rw [corBlock_of_locate h, getLsbD_flipBit b hi, h]
    simp only [Nat.cast_inj]

/-- Settles O60: each range by its law, and each bit of COR's block by the two cases of LOC. -/
theorem statusArithmeticStaysInRange : Obligations.StatusArithmeticStaysInRange := by
  refine ⟨fun m is => xorAll_lt, fun m b => ⟨syndrome_lt b, toNat_synWord b, ?parity, locate_bounds b⟩,
    fun s b => ⟨operand?_toNat b, _, exec_cor s b, fun i => getLsbD_corBlock b⟩⟩
  case parity => exact Nat.le_one_iff_eq_zero_or_eq_one.1 (Nat.le_of_lt_succ (overallParity_lt b))

/-! Two or more flipped bits (R65). -/

/-- Flipping a bit that is 0 adds its index to the ones. -/
theorem ones_flipBit {e : Block m} {l : Nat} (hl : l < 2 ^ m) (h : l ∉ ones e) :
    ones (flipBit e l) = insert l (ones e) := by
  have hbit : e.getLsbD l = false := by rwa [mem_ones hl, Bool.not_eq_true] at h
  ext k
  rw [Finset.mem_insert]
  by_cases hk : k < 2 ^ m
  · rw [mem_ones hk, mem_ones hk, getLsbD_flipBit e hk]
    by_cases hlk : l = k
    · subst hlk
      simp [hbit]
    · simp [hlk, Ne.symm hlk]
  · have hkl : k ≠ l := fun hkl => hk (hkl ▸ hl)
    simp [ones, hk, hkl]

theorem flipBit_zero_block (i : Nat) : flipBit (0#(2 ^ m)) i = unitBlock i := BitVec.zero_xor

theorem ones_unitBlock {i : Nat} (hi : i < 2 ^ m) : ones (unitBlock i : Block m) = {i} := by
  have h := ones_flipBit (e := 0#(2 ^ m)) hi (by simp [ones])
  rw [flipBit_zero_block] at h
  simpa [ones] using h

/-- Three flips at different indices are three ones. -/
theorem card_ones_of_three_flips {i j k : Nat} (hi : i < 2 ^ m) (hj : j < 2 ^ m) (hk : k < 2 ^ m) (hij : i ≠ j)
    (hik : i ≠ k) (hjk : j ≠ k) : (ones (flipBit (flipBit (unitBlock i : Block m) j) k)).card = 3 := by
  have htwo : ones (flipBit (unitBlock i : Block m) j) = {j, i} := by
    rw [ones_flipBit hj (by simp [ones_unitBlock hi, hij.symm]), ones_unitBlock hi]
  rw [ones_flipBit hk (by simp [htwo, hik.symm, hjk.symm]), htwo]
  exact Finset.card_eq_three.2 ⟨k, j, i, hjk.symm, hik.symm, hij.symm, rfl⟩

/-- LOC of a codeword with two flipped bits (41_syndrome_locator.md R57). -/
theorem locate_two_flips {c : Block m} (hc : isCodeword c = true) {i j : Nat} (hi : i < 2 ^ m) (hj : j < 2 ^ m)
    (hij : i ≠ j) : locate (flipBit (flipBit c i) j) = ((i ^^^ j : Nat) : Int) := by
  have hs : syndrome (flipBit (flipBit c i) j) = i ^^^ j := by
    rw [syndrome_flipBit _ hj, syndrome_flipBit_codeword hc hi]
  rw [← hs]
  refine locate_of_syndrome_ne ?_
  rw [hs]
  exact mt Nat.xor_eq_zero_iff.1 hij

theorem corBlock_two_flips {c : Block m} (hc : isCodeword c = true) {i j : Nat} (hi : i < 2 ^ m) (hj : j < 2 ^ m)
    (hij : i ≠ j) : corBlock (flipBit (flipBit c i) j) = flipBit (flipBit (flipBit c i) j) (i ^^^ j) :=
  corBlock_of_locate (locate_two_flips hc hi hj hij)

theorem flipBit_xor (a b : Block m) (l : Nat) : flipBit a l ^^^ b = flipBit (a ^^^ b) l := by
  rw [flipBit, flipBit, BitVec.xor_assoc, BitVec.xor_comm (unitBlock l), BitVec.xor_assoc]

/-- Adding the block back leaves the flips alone. -/
theorem three_flips_xor_self (c : Block m) (i j k : Nat) :
    flipBit (flipBit (flipBit c i) j) k ^^^ c = flipBit (flipBit (unitBlock i) j) k := by
  rw [flipBit_xor, flipBit_xor, flipBit_xor, BitVec.xor_self, flipBit_zero_block]

/-- An even set of flips whose indices cancel out is left as it is. -/
theorem corBlock_of_cancelling {c e : Block m} (hc : isCodeword c = true) (hp : (ones e).card % 2 = 0)
    (hx : xorAll (onesList e) = 0) : corBlock (c ^^^ e) = c ^^^ e := by
  rw [card_ones_mod_two] at hp
  rw [← syndrome_eq_xorAll] at hx
  exact corBlock_of_noError ((locate_codeword_xor hc e).trans (locate_of_even hx hp))

/-- The syndrome is the located index, and 0 where there is none: `loc` determines `syn`. -/
theorem syndrome_eq_toNat_locate (b : Block m) : syndrome b = (locate b).toNat := by
  by_cases h : syndrome b = 0
  · rw [locate_of_syndrome_eq h, h]
    split <;> rfl
  · rw [locate_of_syndrome_ne h, Int.toNat_natCast]

theorem synWord_eq_of_locate_eq {a b : Block m} (h : locate a = locate b) : synWord a = synWord b := by
  rw [synWord, synWord, syndrome_eq_toNat_locate, syndrome_eq_toNat_locate, h]

theorem locWord_eq_of_locate_eq {a b : Block m} (h : locate a = locate b) : locWord a = locWord b := by
  rw [locWord, locWord, h]

/-- Whatever LOC finds in a block, it finds in a codeword with at most one flipped bit. -/
theorem exists_atMostOneFlip_locate_eq {c : Block m} (hc : isCodeword c = true) (b : Block m) :
    ∃ b', atMostOneFlip c b' ∧ locate b' = locate b := by
  obtain h | ⟨l, hl, h⟩ := locate_range b
  · exact ⟨c, .inl rfl, (locate_of_isCodeword hc).trans h.symm⟩
  · exact ⟨flipBit c l, .inr ⟨l, hl, rfl⟩, (locate_flipBit_codeword hc hl).trans h.symm⟩

/-- COR's block and `loc` where LOC names an index (42_corrector.md R60, R61). -/
theorem cor_of_locate {b : Block m} {l : Nat} (h : locate b = l) :
    corBlock b = flipBit b l ∧ (locWord b).toNat = l :=
  ⟨corBlock_of_locate h, toNat_locWord_of_locate h (lt_of_locate h)⟩

/-- Settles O27: two flips have a third index as their syndrome; COR's response is read off LOC of the flips, which
LOC of some codeword with at most one flipped bit equals. -/
theorem miscorrectionIsSilent : Obligations.MiscorrectionIsSilent := by
  refine ⟨fun m c hc => ⟨fun i j hi hj hij hi0 hj0 => ⟨corBlock_two_flips hc hi hj hij, ?three⟩,
    fun j hj hj0 => ?zero, fun e => corBlock_of_cancelling hc⟩, fun s c e hc _ => ?response⟩
  case three =>
    have hik : i ≠ i ^^^ j := fun h => hj0 (Nat.xor_right_injective (h.symm.trans (Nat.xor_zero i).symm))
    have hjk : j ≠ i ^^^ j := fun h => hi0 (Nat.xor_left_injective (h.symm.trans (Nat.zero_xor j).symm))
    rw [corBlock_two_flips hc hi hj hij, three_flips_xor_self]
    exact card_ones_of_three_flips hi hj (Nat.xor_lt_two_pow hi hj) hij hik hjk
  case zero => rw [corBlock_two_flips hc (Nat.two_pow_pos m) hj hj0.symm, Nat.zero_xor, flipBit_flipBit]
  case response =>
    have hloc := locate_codeword_xor hc e
    obtain ⟨b', hflip, hb'⟩ := exists_atMostOneFlip_locate_eq hc (c ^^^ e)
    rw [← syndrome_eq_xorAll, card_ones_mod_two]
    refine ⟨_, exec_cor s (c ^^^ e), ?_, fun hs => ?_, fun hs hp => ?_, fun hs hp => ?_, b', _, hflip, exec_cor s b',
      synWord_eq_of_locate_eq hb', locWord_eq_of_locate_eq hb'⟩
    · rw [toNat_synWord, syndrome_codeword_xor hc]
    · exact cor_of_locate (hloc.trans (locate_of_syndrome_ne hs))
    · exact cor_of_locate (hloc.trans (locate_of_odd hs hp))
    · have hnone := hloc.trans (locate_of_even hs hp)
      exact ⟨corBlock_of_noError hnone, locWord_of_noError hnone⟩

end Sys2Proof.Machine
end

section
/-! Proofs of the statements on the assembler (spec/30_encoding.md R39): printed lines, the word of a line, and the two
forms of a block. -/

namespace Sys2Proof.Machine

open Sys2Proof.Claims

/-! Any line. -/

theorem endsLine_of_lineEnd {tail : List Char} (h : LineEnd tail) : endsLine tail = true := (endsLine_iff tail).2 h

/-- A block read as an operation's own operand gives the operation's word. -/
theorem assemble_of_own_block {m : Nat} {i : Instr} {cs rest : List Char}
    (h : parseBlock m (opcode i) cs = .ok (i.blk, rest)) (he : endsLine rest = true) :
    assemble m (mnemonicOf i ++ ' ' :: cs) = .ok (encode m i) := by
  rw [assemble_of_block h he, instrOfOp_opcode]

/-- What a line that assembles consists of. -/
theorem exists_block_of_assemble {m : Nat} {src : List Char} {w : Req m} (h : assemble m src = .ok w) :
    ∃ (i : Instr) (cs rest : List Char), src = mnemonicOf i ++ ' ' :: cs ∧
      parseBlock m (opcode i) cs = .ok (i.blk, rest) ∧ endsLine rest = true ∧ w = encode m i := by
  unfold assemble at h
  split at h
  · next a b c cs =>
    split at h
    · cases h
    · next op hop =>
      split at h
      · cases h
      · next v rest hblock =>
        split at h
        · next hend =>
          refine ⟨instrOfOp op v, cs, rest, ?_, ?_, hend, (Except.ok.inj h).symm⟩
          · rw [← opOfMnemonic_eq_some.1 hop v]
            rfl
          · rwa [opcode_instrOfOp, blk_instrOfOp]
        · cases h
  · cases h

/-- A line is a mnemonic, a space and the rest exactly when its first four characters are. -/
theorem eq_mnemonicOf_append_iff (i : Instr) (src cs : List Char) :
    src = mnemonicOf i ++ ' ' :: cs ↔ src.take 3 = mnemonicOf i ∧ src[3]? = some ' ' ∧ src.drop 4 = cs := by
  constructor
  · rintro rfl
    cases i <;> exact ⟨rfl, rfl, rfl⟩
  · rintro ⟨hm, hs, rfl⟩
    obtain ⟨hlt, hs⟩ := List.getElem?_eq_some_iff.1 hs
    rw [← hm, ← hs, ← List.drop_eq_getElem_cons hlt, List.take_append_drop]

/-- The value of an operation's word, where N bits hold its operand (30_encoding.md R30). -/
theorem toNat_encode_of_wellFormed {m : Nat} {i : Instr} (h : i.wellFormed m = true) :
    (encode m i).toNat = (opcode i).toNat * 2 ^ 2 ^ m + i.blk := by
  rw [toNat_encode, Nat.mod_eq_of_lt ((wellFormed_iff m i).1 h)]

/-- Settles O56: a line that assembles is read part by part, and a line with those parts assembles. -/
theorem assembledWordIsPacked : Obligations.AssembledWordIsPacked := by
  intro m src w
  constructor
  · intro h
    obtain ⟨i, cs, rest, hsrc, hblock, hend, rfl⟩ := exists_block_of_assemble h
    obtain ⟨hm, hs, rfl⟩ := (eq_mnemonicOf_append_iff i src cs).1 hsrc
    have hwf : i.wellFormed m = true := (wellFormed_iff m i).2 (parseBlock_lt hblock)
    exact ⟨i, rest, hwf, hm, hs, hblock, hend, toNat_encode_of_wellFormed hwf⟩
  · rintro ⟨i, rest, hwf, hm, hs, hblock, hend, hw⟩
    rw [(eq_mnemonicOf_append_iff i src _).2 ⟨hm, hs, rfl⟩, assemble_of_own_block hblock hend]
    exact congrArg _ (BitVec.eq_of_toNat_eq ((toNat_encode_of_wellFormed hwf).trans hw.symm))

/-- A block read as b's bus value gives the packed word of b. -/
theorem assemble_of_block_toNat {m : Nat} {i : Instr} {cs rest : List Char} (b : Block m)
    (h : parseBlock m (opcode i) cs = .ok (b.toNat, rest)) (he : endsLine rest = true) :
    assemble m (mnemonicOf i ++ ' ' :: cs) = .ok (packed (opcode i).toNat b) := by
  rw [assemble_of_block h he, packed_eq_reqOf, reqOf]

/-! Hex literals. -/

theorem hexDigit_hexChar {d : Nat} (h : d < 16) : hexDigit (hexChar d) = some d := by
  interval_cases d <;> rfl

/-- No line goes on with a hex digit where it may end. -/
theorem hexDigit_of_lineEnd {tail : List Char} (h : LineEnd tail) : ∀ c ∈ tail.head?, hexDigit c = none := by
  rcases h with rfl | ⟨comment, rfl⟩
  · intro c hc
    cases hc
  · intro c hc
    cases Option.some.inj hc
    rfl

/-- The digits of a hex literal are read as the number they write. -/
theorem takeHex_hexChar {ds : List Nat} (h : ∀ d ∈ ds, d < 16) {tail : List Char} (ht : LineEnd tail) :
    takeHex (ds.map hexChar ++ tail) 0 0 = (ds.length, hexValue ds, tail) := by
  have hdigits : List.Forall₂ (fun c d => hexDigit c = some d) (ds.map hexChar) ds :=
    List.forall₂_map_left_iff.2 (List.forall₂_same.2 fun d hd => hexDigit_hexChar (h d hd))
  rw [takeHex_digits hdigits (hexDigit_of_lineEnd ht), Nat.zero_add, hexValue]

/-- Settles O57: a literal is read as its value, which N bits hold or not. -/
theorem hexLiteralAssembles : Obligations.HexLiteralAssembles := by
  intro m i ds tail hne hds ht
  have hblock := parseBlock_hex (m := m) (op := opcode i) (takeHex_hexChar hds ht) (mt List.length_eq_zero_iff.1 hne)
  refine ⟨fun b hb => assemble_of_block_toNat b ?_ (endsLine_of_lineEnd ht), fun hwide => assemble_of_badBlock ?_⟩
  · rw [hblock, if_pos (hb ▸ b.isLt), hb]
  · rw [hblock, if_neg (Nat.not_lt.2 hwide)]

/-! Quoted blocks. -/

theorem not_dataIndex_iff (i : Nat) : ¬ DataIndex i ↔ isParityPosition i = true := by
  rw [dataIndex_iff, Bool.not_eq_false]

theorem legalSlot_of_fits {op : OpWord} {i : Nat} {c : Char} (h : QuotedCharFits op i c) : LegalSlot op i c := by
  rwa [QuotedCharFits, not_dataIndex_iff] at h

theorem legalSlots_of_fit {op : OpWord} {cs : List Char} (h : ∀ j c, cs[j]? = some c → QuotedCharFits op j c) :
    ∀ j c, cs[j]? = some c → LegalSlot op (0 + j) c := by
  intro j c hj
  rw [Nat.zero_add]
  exact legalSlot_of_fits (h j c hj)

/-- The block whose index j is 1 where character j is 1. -/
def quotedBits (m : Nat) (cs : List Char) : Block m :=
  BitVec.ofNat (2 ^ m) ((cs.map fun c => decide (c = '1')).foldr (fun (b : Bool) v => b.toNat + 2 * v) 0)

theorem getLsbD_quotedBits {m : Nat} (cs : List Char) {j : Nat} (hj : j < 2 ^ m) :
    (quotedBits m cs).getLsbD j = decide (cs[j]? = some '1') := by
  rw [quotedBits, BitVec.getLsbD_ofNat, testBit_foldr_bits, decide_eq_true hj, Bool.true_and,
    List.getD_eq_getElem?_getD, List.getElem?_map]
  cases cs[j]? <;> simp

/-- N fitting characters in quotes are read as their block, whatever stands behind. -/
theorem parseBlock_of_fit {m : Nat} {op : OpWord} {cs : List Char} (tail : List Char) (hl : cs.length = 2 ^ m)
    (h : ∀ j c, cs[j]? = some c → QuotedCharFits op j c) :
    parseBlock m op (dquote :: (cs ++ dquote :: tail)) = .ok ((quotedBits m cs).toNat, tail) := by
  have hread := parseQuoted_legal tail (legalSlots_of_fit h)
  have hlt := parseQuoted_lt hread
  rw [parseBlock_quoted hread, if_pos hl, quotedBits, BitVec.toNat_ofNat, Nat.mod_eq_of_lt (hl ▸ hlt)]

theorem parseBlock_of_wrongLength {m : Nat} {op : OpWord} {cs : List Char} (tail : List Char) (hl : cs.length ≠ 2 ^ m)
    (h : ∀ j c, cs[j]? = some c → QuotedCharFits op j c) :
    parseBlock m op (dquote :: (cs ++ dquote :: tail)) = .error .wrongLength := by
  rw [parseBlock_quoted (parseQuoted_legal tail (legalSlots_of_fit h)), if_neg hl]

/-- An r out of place is refused, after characters that fit and before any others. -/
theorem parseBlock_of_misplaced {m : Nat} {op : OpWord} {before : List Char} (tail : List Char)
    (h : ∀ j c, before[j]? = some c → QuotedCharFits op j c) (hr : op ≠ 0b00#2 ∨ DataIndex before.length) :
    parseBlock m op (dquote :: (before ++ 'r' :: tail)) = .error .misplacedReserved := by
  refine parseBlock_quoted_error (parseQuoted_misplaced tail (legalSlots_of_fit h) ?_)
  rw [Nat.zero_add, ← not_dataIndex_iff]
  tauto

/-- Settles O58: the block between the quotes is read, or refused for its length or its r. -/
theorem quotedBlockAssembles : Obligations.QuotedBlockAssembles := by
  intro m i cs tail
  refine ⟨fun ht hl h => ⟨quotedBits m cs, fun j => getLsbD_quotedBits cs, ?_⟩, fun hl h => ?_, ?_⟩
  · exact assemble_of_block_toNat _ (parseBlock_of_fit tail hl h) (endsLine_of_lineEnd ht)
  · exact assemble_of_badBlock (parseBlock_of_wrongLength tail hl h)
  · rintro before afterR rfl h hr
    rw [quotedLine, List.append_assoc]
    exact assemble_of_badBlock (parseBlock_of_misplaced _ h hr)

/-! Printed lines. -/

/-- The characters that print the N low bits of a bus value. -/
def bitChars (m blk : Nat) : List Char := (List.range (2 ^ m)).map fun i => if blk.testBit i then '1' else '0'

theorem quoteBlock_eq (m blk : Nat) : quoteBlock m blk = dquote :: (bitChars m blk ++ dquote :: []) := rfl

theorem bitChars_fit (op : OpWord) (m blk : Nat) : ∀ j c, (bitChars m blk)[j]? = some c → QuotedCharFits op j c := by
  intro j c h
  obtain ⟨i, -, rfl⟩ := List.mem_map.1 (List.mem_of_getElem? h)
  split
  · exact .inr (.inl rfl)
  · exact .inl rfl

/-- Printing and reading a block gives it back. -/
theorem quotedBits_bitChars (m blk : Nat) : quotedBits m (bitChars m blk) = BitVec.ofNat (2 ^ m) blk := by
  refine block_ext fun j hj => ?_
  rw [getLsbD_quotedBits _ hj, BitVec.getLsbD_ofNat, bitChars, List.getElem?_map, List.getElem?_range hj]
  cases hb : blk.testBit j <;> simp [hb, hj]

/-- Settles O55: the printed block has N fitting characters, and its bits are those of the operand. -/
theorem printedLineAssembles : Obligations.PrintedLineAssembles := by
  intro m i h
  have hl : (bitChars m i.blk).length = 2 ^ m := by simp [bitChars]
  have hblock := parseBlock_of_fit [] hl (bitChars_fit (opcode i) m i.blk)
  rw [quotedBits_bitChars, BitVec.toNat_ofNat, Nat.mod_eq_of_lt ((wellFormed_iff m i).1 h)] at hblock
  exact assemble_of_own_block hblock rfl

end Sys2Proof.Machine
end
